-- ==== Sys2Proof/Word.lean ====
section
/-! DEFINITION. The two word types of the block (spec 00_scope.md R7): 8-bit bus data and registers,
16-bit addresses, program counter and stack pointer. Every value is unsigned (00_scope.md, section 4). -/
namespace Sys2Proof

/-- 8-bit bus data and general registers (R7). -/
abbrev Byte := BitVec 8

/-- 16-bit bus addresses, `pc` and `sp` (R7). -/
abbrev Word := BitVec 16

end Sys2Proof
end

