-- ==== Sys2Proof/Syntax.lean ====
section
/-! DEFINITION. The syntax of the instruction set: the general registers, the register pairs of `LXI`, and
the instructions, one constructor per row of spec/opcode_table.json (78 rows, 30_encoding.md R60), each
carrying the operand bytes that follow its opcode. `Form` is the same instruction as its encoding fields,
one constructor per row of the pattern table 30_encoding.md R55 (the ten instruction forms of 00_scope.md
R2); a form can be ill-formed (WellFormed.lean), an instruction cannot: operand bytes take all values (R59). -/
namespace Sys2Proof

/-- The seven general registers (10_state.md R13). -/
inductive Reg where
  | b | c | d | e | h | l | a
deriving DecidableEq, Repr

/-- The three register pairs that `LXI rp` loads (30_encoding.md R51); `sp` is `LXI SP`'s own form. -/
inductive Pair where
  | bc | de | hl
deriving DecidableEq, Repr

/-- The five instruction formats (30_encoding.md R49). -/
inductive Format where
  | reg | imm8 | imm16 | dir16 | fixed
deriving DecidableEq, Repr

/-- The instruction set: one constructor per opcode byte, in the opcode table's order. -/
inductive Instr where
  /-- `LXI B,data16`, opcode `0x01`. -/
  | lxiB (data16 : Word)
  /-- `MVI B,data8`, opcode `0x06`. -/
  | mviB (data8 : Byte)
  /-- `MVI C,data8`, opcode `0x0E`. -/
  | mviC (data8 : Byte)
  /-- `LXI D,data16`, opcode `0x11`. -/
  | lxiD (data16 : Word)
  /-- `MVI D,data8`, opcode `0x16`. -/
  | mviD (data8 : Byte)
  /-- `MVI E,data8`, opcode `0x1E`. -/
  | mviE (data8 : Byte)
  /-- `LXI H,data16`, opcode `0x21`. -/
  | lxiH (data16 : Word)
  /-- `MVI H,data8`, opcode `0x26`. -/
  | mviH (data8 : Byte)
  /-- `MVI L,data8`, opcode `0x2E`. -/
  | mviL (data8 : Byte)
  /-- `LXI SP,data16`, opcode `0x31`. -/
  | lxiSP (data16 : Word)
  /-- `STA addr16`, opcode `0x32`. -/
  | sta (addr16 : Word)
  /-- `MVI M,data8`, opcode `0x36`. -/
  | mviM (data8 : Byte)
  /-- `LDA addr16`, opcode `0x3A`. -/
  | lda (addr16 : Word)
  /-- `MVI A,data8`, opcode `0x3E`. -/
  | mviA (data8 : Byte)
  /-- `MOV B,B`, opcode `0x40`. -/
  | movBB
  /-- `MOV B,C`, opcode `0x41`. -/
  | movBC
  /-- `MOV B,D`, opcode `0x42`. -/
  | movBD
  /-- `MOV B,E`, opcode `0x43`. -/
  | movBE
  /-- `MOV B,H`, opcode `0x44`. -/
  | movBH
  /-- `MOV B,L`, opcode `0x45`. -/
  | movBL
  /-- `MOV B,M`, opcode `0x46`. -/
  | movBM
  /-- `MOV B,A`, opcode `0x47`. -/
  | movBA
  /-- `MOV C,B`, opcode `0x48`. -/
  | movCB
  /-- `MOV C,C`, opcode `0x49`. -/
  | movCC
  /-- `MOV C,D`, opcode `0x4A`. -/
  | movCD
  /-- `MOV C,E`, opcode `0x4B`. -/
  | movCE
  /-- `MOV C,H`, opcode `0x4C`. -/
  | movCH
  /-- `MOV C,L`, opcode `0x4D`. -/
  | movCL
  /-- `MOV C,M`, opcode `0x4E`. -/
  | movCM
  /-- `MOV C,A`, opcode `0x4F`. -/
  | movCA
  /-- `MOV D,B`, opcode `0x50`. -/
  | movDB
  /-- `MOV D,C`, opcode `0x51`. -/
  | movDC
  /-- `MOV D,D`, opcode `0x52`. -/
  | movDD
  /-- `MOV D,E`, opcode `0x53`. -/
  | movDE
  /-- `MOV D,H`, opcode `0x54`. -/
  | movDH
  /-- `MOV D,L`, opcode `0x55`. -/
  | movDL
  /-- `MOV D,M`, opcode `0x56`. -/
  | movDM
  /-- `MOV D,A`, opcode `0x57`. -/
  | movDA
  /-- `MOV E,B`, opcode `0x58`. -/
  | movEB
  /-- `MOV E,C`, opcode `0x59`. -/
  | movEC
  /-- `MOV E,D`, opcode `0x5A`. -/
  | movED
  /-- `MOV E,E`, opcode `0x5B`. -/
  | movEE
  /-- `MOV E,H`, opcode `0x5C`. -/
  | movEH
  /-- `MOV E,L`, opcode `0x5D`. -/
  | movEL
  /-- `MOV E,M`, opcode `0x5E`. -/
  | movEM
  /-- `MOV E,A`, opcode `0x5F`. -/
  | movEA
  /-- `MOV H,B`, opcode `0x60`. -/
  | movHB
  /-- `MOV H,C`, opcode `0x61`. -/
  | movHC
  /-- `MOV H,D`, opcode `0x62`. -/
  | movHD
  /-- `MOV H,E`, opcode `0x63`. -/
  | movHE
  /-- `MOV H,H`, opcode `0x64`. -/
  | movHH
  /-- `MOV H,L`, opcode `0x65`. -/
  | movHL
  /-- `MOV H,M`, opcode `0x66`. -/
  | movHM
  /-- `MOV H,A`, opcode `0x67`. -/
  | movHA
  /-- `MOV L,B`, opcode `0x68`. -/
  | movLB
  /-- `MOV L,C`, opcode `0x69`. -/
  | movLC
  /-- `MOV L,D`, opcode `0x6A`. -/
  | movLD
  /-- `MOV L,E`, opcode `0x6B`. -/
  | movLE
  /-- `MOV L,H`, opcode `0x6C`. -/
  | movLH
  /-- `MOV L,L`, opcode `0x6D`. -/
  | movLL
  /-- `MOV L,M`, opcode `0x6E`. -/
  | movLM
  /-- `MOV L,A`, opcode `0x6F`. -/
  | movLA
  /-- `MOV M,B`, opcode `0x70`. -/
  | movMB
  /-- `MOV M,C`, opcode `0x71`. -/
  | movMC
  /-- `MOV M,D`, opcode `0x72`. -/
  | movMD
  /-- `MOV M,E`, opcode `0x73`. -/
  | movME
  /-- `MOV M,H`, opcode `0x74`. -/
  | movMH
  /-- `MOV M,L`, opcode `0x75`. -/
  | movML
  /-- `HALT`, opcode `0x76`. -/
  | halt
  /-- `MOV M,A`, opcode `0x77`. -/
  | movMA
  /-- `MOV A,B`, opcode `0x78`. -/
  | movAB
  /-- `MOV A,C`, opcode `0x79`. -/
  | movAC
  /-- `MOV A,D`, opcode `0x7A`. -/
  | movAD
  /-- `MOV A,E`, opcode `0x7B`. -/
  | movAE
  /-- `MOV A,H`, opcode `0x7C`. -/
  | movAH
  /-- `MOV A,L`, opcode `0x7D`. -/
  | movAL
  /-- `MOV A,M`, opcode `0x7E`. -/
  | movAM
  /-- `MOV A,A`, opcode `0x7F`. -/
  | movAA
deriving DecidableEq, Repr

/-- An instruction as its encoding fields: a row of 30_encoding.md R55 with the row's free fields (`ddd` and
`sss` register codes, `pp` pair code) and its operand. -/
inductive Form where
  | movRR (ddd sss : BitVec 3)
  | movRM (ddd : BitVec 3)
  | movMR (sss : BitVec 3)
  | mviR (ddd : BitVec 3) (data8 : Byte)
  | mviM (data8 : Byte)
  | lxiRp (pp : BitVec 2) (data16 : Word)
  | lxiSp (data16 : Word)
  | lda (addr16 : Word)
  | sta (addr16 : Word)
  | halt
deriving DecidableEq, Repr

end Sys2Proof
end

