-- ==== Sys2Proof/WellFormed.lean ====
section
/-! DEFINITION. Well-formed encoding fields: the extra field conditions of the pattern table, spec
30_encoding.md R55. An operand byte has no illegal value (R59), so the register and pair codes are all there
is to check. -/
namespace Sys2Proof

/-- The register code reserved for the memory operand M (10_state.md R14). -/
def codeM : BitVec 3 := 0b110

/-- The pair code of `sp` (30_encoding.md R51). -/
def codeSp : BitVec 2 := 0b11

/-- R55's column "extra condition": `ddd != 110` and `sss != 110` where a form takes a register, and
`pp != 11` where it takes a pair. -/
def Form.wellFormed : Form → Bool
  | .movRR ddd sss => ddd != codeM && sss != codeM
  | .movRM ddd => ddd != codeM
  | .movMR sss => sss != codeM
  | .mviR ddd _ => ddd != codeM
  | .mviM _ => true
  | .lxiRp pp _ => pp != codeSp
  | .lxiSp _ => true
  | .lda _ => true
  | .sta _ => true
  | .halt => true

end Sys2Proof
end

