-- ==== Sys2Proof/Decode.lean ====
section
/-! DEFINITION. The encoding: register and pair codes (spec 10_state.md R14, 30_encoding.md R51), the
pattern table R55 as data, the decoder (total on any bytes, rejecting by name), the encoder, and the host's
numbering of an instruction's bits. Decoding is "by masking, not by a flat lookup table" (40_cycle.md R66). -/
namespace Sys2Proof

/-! ## Bytes and words -/

/-- The byte-combination rule: `cat(hi, lo) = (hi << 8) | lo` (R53). -/
def cat (hi lo : Byte) : Word := (hi.setWidth 16 <<< 8) ||| lo.setWidth 16

/-- The half of a 16-bit operand that is fetched first, at opcode address + 1 (R54). -/
def lowByte (w : Word) : Byte := w.extractLsb' 0 8

/-- The half of a 16-bit operand at opcode address + 2 (R54). -/
def highByte (w : Word) : Byte := w.extractLsb' 8 8

/-- `ddd = op[5:3]` (R49). -/
def ddd (op : Byte) : BitVec 3 := op.extractLsb' 3 3

/-- `sss = op[2:0]` (R49). -/
def sss (op : Byte) : BitVec 3 := op.extractLsb' 0 3

/-- `pp = op[5:4]` (R49). -/
def pp (op : Byte) : BitVec 2 := op.extractLsb' 4 2

/-! ## Register and pair codes -/

/-- The multiplexer's code of a register (10_state.md R14). -/
def Reg.code : Reg → BitVec 3
  | .b => 0b000 | .c => 0b001 | .d => 0b010 | .e => 0b011 | .h => 0b100 | .l => 0b101 | .a => 0b111

/-- The register a code selects; code `110` is the memory operand, never a register (R14). -/
def Reg.ofCode (c : BitVec 3) : Option Reg :=
  if c = 0b000 then some .b else if c = 0b001 then some .c else if c = 0b010 then some .d
  else if c = 0b011 then some .e else if c = 0b100 then some .h else if c = 0b101 then some .l
  else if c = 0b111 then some .a else none

/-- The code of a pair, in the list order the spec adopts (R51, its decision D12; log 5). -/
def Pair.code : Pair → BitVec 2
  | .bc => 0b00 | .de => 0b01 | .hl => 0b10

/-- The pair a code selects; code `11` is `sp`, the form of `LXI SP` (R51). -/
def Pair.ofCode (c : BitVec 2) : Option Pair :=
  if c = 0b00 then some .bc else if c = 0b01 then some .de else if c = 0b10 then some .hl else none

/-- The register that takes the high byte of a pair (R17, R51). -/
def Pair.highReg : Pair → Reg
  | .bc => .b | .de => .d | .hl => .h

/-- The register that takes the low byte of a pair (R17, R51). -/
def Pair.lowReg : Pair → Reg
  | .bc => .c | .de => .e | .hl => .l

/-! ## The fixed opcodes -/

/-- `OPC_HALT` (00_scope.md R9). -/
def opcHalt : Byte := 0x76

/-- `OPC_LDA` (00_scope.md R10, the spec's decision D1; log 4). -/
def opcLda : Byte := 0x3A

/-- `OPC_STA` (00_scope.md R10, the spec's decision D1; log 4). -/
def opcSta : Byte := 0x32

/-! ## Instructions by form -/

/-- `MOV r1,r2` with destination `r1` and source `r2`, as the constructor of its own opcode (R60). -/
def Instr.movRR : Reg → Reg → Instr
  | .b, .b => .movBB | .b, .c => .movBC | .b, .d => .movBD | .b, .e => .movBE | .b, .h => .movBH | .b, .l => .movBL | .b, .a => .movBA
  | .c, .b => .movCB | .c, .c => .movCC | .c, .d => .movCD | .c, .e => .movCE | .c, .h => .movCH | .c, .l => .movCL | .c, .a => .movCA
  | .d, .b => .movDB | .d, .c => .movDC | .d, .d => .movDD | .d, .e => .movDE | .d, .h => .movDH | .d, .l => .movDL | .d, .a => .movDA
  | .e, .b => .movEB | .e, .c => .movEC | .e, .d => .movED | .e, .e => .movEE | .e, .h => .movEH | .e, .l => .movEL | .e, .a => .movEA
  | .h, .b => .movHB | .h, .c => .movHC | .h, .d => .movHD | .h, .e => .movHE | .h, .h => .movHH | .h, .l => .movHL | .h, .a => .movHA
  | .l, .b => .movLB | .l, .c => .movLC | .l, .d => .movLD | .l, .e => .movLE | .l, .h => .movLH | .l, .l => .movLL | .l, .a => .movLA
  | .a, .b => .movAB | .a, .c => .movAC | .a, .d => .movAD | .a, .e => .movAE | .a, .h => .movAH | .a, .l => .movAL | .a, .a => .movAA

/-- `MOV r,M` with destination `r` (R60). -/
def Instr.movRM : Reg → Instr
  | .b => .movBM | .c => .movCM | .d => .movDM | .e => .movEM | .h => .movHM | .l => .movLM | .a => .movAM

/-- `MOV M,r` with source `r` (R60). -/
def Instr.movMR : Reg → Instr
  | .b => .movMB | .c => .movMC | .d => .movMD | .e => .movME | .h => .movMH | .l => .movML | .a => .movMA

/-- `MVI r,data8` with destination `r` (R60). -/
def Instr.mviR : Reg → Byte → Instr
  | .b, d => .mviB d | .c, d => .mviC d | .d, d => .mviD d | .e, d => .mviE d | .h, d => .mviH d | .l, d => .mviL d | .a, d => .mviA d

/-- `LXI rp,data16` with pair `rp` (R60). -/
def Instr.lxiRp : Pair → Word → Instr
  | .bc, w => .lxiB w | .de, w => .lxiD w | .hl, w => .lxiH w

/-- The encoding fields of each instruction (R55, R60). -/
def Instr.form : Instr → Form
  | .lxiB w => .lxiRp (Pair.code .bc) w
  | .mviB d => .mviR (Reg.code .b) d
  | .mviC d => .mviR (Reg.code .c) d
  | .lxiD w => .lxiRp (Pair.code .de) w
  | .mviD d => .mviR (Reg.code .d) d
  | .mviE d => .mviR (Reg.code .e) d
  | .lxiH w => .lxiRp (Pair.code .hl) w
  | .mviH d => .mviR (Reg.code .h) d
  | .mviL d => .mviR (Reg.code .l) d
  | .lxiSP w => .lxiSp w
  | .sta w => .sta w
  | .mviM d => .mviM d
  | .lda w => .lda w
  | .mviA d => .mviR (Reg.code .a) d
  | .movBB => .movRR (Reg.code .b) (Reg.code .b)
  | .movBC => .movRR (Reg.code .b) (Reg.code .c)
  | .movBD => .movRR (Reg.code .b) (Reg.code .d)
  | .movBE => .movRR (Reg.code .b) (Reg.code .e)
  | .movBH => .movRR (Reg.code .b) (Reg.code .h)
  | .movBL => .movRR (Reg.code .b) (Reg.code .l)
  | .movBM => .movRM (Reg.code .b)
  | .movBA => .movRR (Reg.code .b) (Reg.code .a)
  | .movCB => .movRR (Reg.code .c) (Reg.code .b)
  | .movCC => .movRR (Reg.code .c) (Reg.code .c)
  | .movCD => .movRR (Reg.code .c) (Reg.code .d)
  | .movCE => .movRR (Reg.code .c) (Reg.code .e)
  | .movCH => .movRR (Reg.code .c) (Reg.code .h)
  | .movCL => .movRR (Reg.code .c) (Reg.code .l)
  | .movCM => .movRM (Reg.code .c)
  | .movCA => .movRR (Reg.code .c) (Reg.code .a)
  | .movDB => .movRR (Reg.code .d) (Reg.code .b)
  | .movDC => .movRR (Reg.code .d) (Reg.code .c)
  | .movDD => .movRR (Reg.code .d) (Reg.code .d)
  | .movDE => .movRR (Reg.code .d) (Reg.code .e)
  | .movDH => .movRR (Reg.code .d) (Reg.code .h)
  | .movDL => .movRR (Reg.code .d) (Reg.code .l)
  | .movDM => .movRM (Reg.code .d)
  | .movDA => .movRR (Reg.code .d) (Reg.code .a)
  | .movEB => .movRR (Reg.code .e) (Reg.code .b)
  | .movEC => .movRR (Reg.code .e) (Reg.code .c)
  | .movED => .movRR (Reg.code .e) (Reg.code .d)
  | .movEE => .movRR (Reg.code .e) (Reg.code .e)
  | .movEH => .movRR (Reg.code .e) (Reg.code .h)
  | .movEL => .movRR (Reg.code .e) (Reg.code .l)
  | .movEM => .movRM (Reg.code .e)
  | .movEA => .movRR (Reg.code .e) (Reg.code .a)
  | .movHB => .movRR (Reg.code .h) (Reg.code .b)
  | .movHC => .movRR (Reg.code .h) (Reg.code .c)
  | .movHD => .movRR (Reg.code .h) (Reg.code .d)
  | .movHE => .movRR (Reg.code .h) (Reg.code .e)
  | .movHH => .movRR (Reg.code .h) (Reg.code .h)
  | .movHL => .movRR (Reg.code .h) (Reg.code .l)
  | .movHM => .movRM (Reg.code .h)
  | .movHA => .movRR (Reg.code .h) (Reg.code .a)
  | .movLB => .movRR (Reg.code .l) (Reg.code .b)
  | .movLC => .movRR (Reg.code .l) (Reg.code .c)
  | .movLD => .movRR (Reg.code .l) (Reg.code .d)
  | .movLE => .movRR (Reg.code .l) (Reg.code .e)
  | .movLH => .movRR (Reg.code .l) (Reg.code .h)
  | .movLL => .movRR (Reg.code .l) (Reg.code .l)
  | .movLM => .movRM (Reg.code .l)
  | .movLA => .movRR (Reg.code .l) (Reg.code .a)
  | .movMB => .movMR (Reg.code .b)
  | .movMC => .movMR (Reg.code .c)
  | .movMD => .movMR (Reg.code .d)
  | .movME => .movMR (Reg.code .e)
  | .movMH => .movMR (Reg.code .h)
  | .movML => .movMR (Reg.code .l)
  | .halt => .halt
  | .movMA => .movMR (Reg.code .a)
  | .movAB => .movRR (Reg.code .a) (Reg.code .b)
  | .movAC => .movRR (Reg.code .a) (Reg.code .c)
  | .movAD => .movRR (Reg.code .a) (Reg.code .d)
  | .movAE => .movRR (Reg.code .a) (Reg.code .e)
  | .movAH => .movRR (Reg.code .a) (Reg.code .h)
  | .movAL => .movRR (Reg.code .a) (Reg.code .l)
  | .movAM => .movRM (Reg.code .a)
  | .movAA => .movRR (Reg.code .a) (Reg.code .a)

/-- The instruction that encoding fields name; none where a register field holds code `110` or a pair field
code `11` (R55; open point U3, log 13). -/
def Form.instr? : Form → Option Instr
  | .movRR ddd sss =>
    match Reg.ofCode ddd, Reg.ofCode sss with
    | some dst, some src => some (.movRR dst src)
    | _, _ => none
  | .movRM ddd => (Reg.ofCode ddd).map .movRM
  | .movMR sss => (Reg.ofCode sss).map .movMR
  | .mviR ddd data8 => (Reg.ofCode ddd).map (.mviR · data8)
  | .mviM data8 => some (.mviM data8)
  | .lxiRp pp data16 => (Pair.ofCode pp).map (.lxiRp · data16)
  | .lxiSp data16 => some (.lxiSP data16)
  | .lda addr16 => some (.lda addr16)
  | .sta addr16 => some (.sta addr16)
  | .halt => some .halt

/-! ## Formats and lengths -/

/-- How many operand bytes follow the opcode (R49). -/
def Format.operandBytes : Format → Nat
  | .reg => 0 | .imm8 => 1 | .imm16 => 2 | .dir16 => 2 | .fixed => 0

/-- The instruction's length in bytes (R57). -/
def Format.length (f : Format) : Nat := 1 + f.operandBytes

/-- The format of each form (R55). -/
def Form.format : Form → Format
  | .movRR _ _ => .reg
  | .movRM _ => .reg
  | .movMR _ => .reg
  | .mviR _ _ => .imm8
  | .mviM _ => .imm8
  | .lxiRp _ _ => .imm16
  | .lxiSp _ => .imm16
  | .lda _ => .dir16
  | .sta _ => .dir16
  | .halt => .fixed

/-- The length of an instruction in bytes (R48, R57). -/
def Instr.length (i : Instr) : Nat := i.form.format.length

/-! ## The decoder -/

/-- A row of the pattern table R55: `(op & mask) = pattern`, the format, and the form with its fields taken
from the opcode and its operand from the low and high operand bytes. -/
structure FormRow where
  mask : Byte
  pattern : Byte
  format : Format
  form : (op low high : Byte) → Form

/-- The pattern table R55, `HALT` first (R56). -/
def formRows : List FormRow :=
  [ ⟨0xFF, opcHalt, .fixed, fun _ _ _ => .halt⟩,
    ⟨0xC0, 0x40, .reg, fun op _ _ => .movRR (ddd op) (sss op)⟩,
    ⟨0xC7, 0x46, .reg, fun op _ _ => .movRM (ddd op)⟩,
    ⟨0xF8, 0x70, .reg, fun op _ _ => .movMR (sss op)⟩,
    ⟨0xC7, 0x06, .imm8, fun op low _ => .mviR (ddd op) low⟩,
    ⟨0xFF, 0x36, .imm8, fun _ low _ => .mviM low⟩,
    ⟨0xCF, 0x01, .imm16, fun op low high => .lxiRp (pp op) (cat high low)⟩,
    ⟨0xFF, 0x31, .imm16, fun _ low high => .lxiSp (cat high low)⟩,
    ⟨0xFF, opcLda, .dir16, fun _ low high => .lda (cat high low)⟩,
    ⟨0xFF, opcSta, .dir16, fun _ low high => .sta (cat high low)⟩ ]

/-- Whether an opcode byte selects a row: its pattern and its extra field condition (R55). -/
def FormRow.selects (r : FormRow) (op : Byte) : Bool :=
  op &&& r.mask == r.pattern && (r.form op 0 0).wellFormed

/-- The row an opcode byte selects; none for an illegal byte (R58). -/
def decodeOpcode (op : Byte) : Option FormRow := formRows.find? (·.selects op)

/-- The instruction of a row, an opcode and its operand bytes. -/
def FormRow.instr? (r : FormRow) (op low high : Byte) : Option Instr := (r.form op low high).instr?

/-- Why bytes are no instruction. -/
inductive DecodeError where
  /-- There is no opcode byte. -/
  | noOpcode
  /-- The opcode byte is illegal (R58). -/
  | unknownInstruction (op : Byte)
  /-- The bytes end before the operand that the opcode asks for (R57). -/
  | operandMissing (op : Byte)
deriving DecidableEq, Repr

/-- What decoding gives: an instruction and the bytes after it, or a named rejection. -/
inductive Decoded where
  | instr (i : Instr) (rest : List Byte)
  | rejected (why : DecodeError)
deriving DecidableEq, Repr

/-- The instruction of a selected row, or the rejection of its opcode. -/
def FormRow.decoded (r : FormRow) (op low high : Byte) (rest : List Byte) : Decoded :=
  match r.instr? op low high with
  | some i => .instr i rest
  | none => .rejected (.unknownInstruction op)

/-- Decoding of a byte sequence: the opcode alone fixes the length (R48, R57), the low operand byte comes
first (R54). -/
def decode : List Byte → Decoded
  | [] => .rejected .noOpcode
  | op :: rest =>
    match decodeOpcode op with
    | none => .rejected (.unknownInstruction op)
    | some r =>
      match r.format.operandBytes, rest with
      | 0, rest => r.decoded op 0 0 rest
      | 1, low :: rest => r.decoded op low 0 rest
      | 2, low :: high :: rest => r.decoded op low high rest
      | _, _ => .rejected (.operandMissing op)

/-! ## The encoder -/

/-- Byte 0 of each format (R49), with the fields in their places. -/
def Form.opcode : Form → Byte
  | .movRR ddd sss => 0b01#2 ++ ddd ++ sss
  | .movRM ddd => 0b01#2 ++ ddd ++ codeM
  | .movMR sss => 0b01#2 ++ codeM ++ sss
  | .mviR ddd _ => 0b00#2 ++ ddd ++ 0b110#3
  | .mviM _ => 0b00#2 ++ codeM ++ 0b110#3
  | .lxiRp pp _ => 0b00#2 ++ pp ++ 0b0001#4
  | .lxiSp _ => 0b00#2 ++ codeSp ++ 0b0001#4
  | .lda _ => opcLda
  | .sta _ => opcSta
  | .halt => opcHalt

/-- The operand bytes of each form, the low byte first (R49, R52, R54). -/
def Form.operands : Form → List Byte
  | .movRR _ _ => []
  | .movRM _ => []
  | .movMR _ => []
  | .mviR _ data8 => [data8]
  | .mviM data8 => [data8]
  | .lxiRp _ data16 => [lowByte data16, highByte data16]
  | .lxiSp data16 => [lowByte data16, highByte data16]
  | .lda addr16 => [lowByte addr16, highByte addr16]
  | .sta addr16 => [lowByte addr16, highByte addr16]
  | .halt => []

/-- The bytes of an instruction, in the order they stand in memory. -/
def encode (i : Instr) : List Byte := i.form.opcode :: i.form.operands

/-! ## The host's numbering of an instruction's bits -/

/-- Byte `k` of an instruction whose bits are `w`, `nbits` of them given; every bit above is 0. -/
def tableByte (nbits w k : Nat) : Byte := if 8 * k < nbits then BitVec.ofNat 8 (w >>> (8 * k)) else 0

/-- The bytes of an instruction given as the opcode table numbers its bits, up to the longest length. -/
def tableBytes (nbits w : Nat) : List Byte := [tableByte nbits w 0, tableByte nbits w 1, tableByte nbits w 2]

/-- What the decoder reads from an instruction whose bits are `w`. -/
def decodeTableWord (nbits w : Nat) : Option Instr :=
  match decode (tableBytes nbits w) with
  | .instr i _ => some i
  | .rejected _ => none

end Sys2Proof
end

