-- ==== Sys2Proof/Config.lean ====
section
/-! DEFINITION. What one instance of the block fixes: the memory window (spec 00_scope.md R8, reference
sizing) and the reset values of the general registers and `sp` (parameter `RESET_REGS`, 10_state.md R30). -/
namespace Sys2Proof.Config

/-- `BASE` at the reference sizing (R8). -/
def base : Word := 0x2000

/-- `SIZE` in bytes at the reference sizing (R8). -/
def size : Nat := 2048

/-- The reset value of each general register: the value R30 takes by the spec's decision D2
(assumption log 1). -/
def resetRegister : Byte := 0x00

/-- The reset value of `sp`: the value R30 takes by the spec's decision D2 (assumption log 1). -/
def resetSp : Word := 0x0000

end Sys2Proof.Config
end

