-- ==== Sys2Proof/Machine/State.lean ====
section
/-! DEFINITION. The state of the block (spec 10_state.md) as plain data, the reasons a step could stop
outside the spec's own Faulted state, and the state after reset (70_reset_and_hazards.md R99). The opcode
and operand latches are not architectural (R26) and are no state. -/
namespace Sys2Proof.Machine

/-- The run state of the halt-detection state machine (R20). -/
inductive RunState where
  | running | halted | faulted
deriving DecidableEq, Repr

/-- The fault kinds, with the "no fault" of a reset record (R22, R85). -/
inductive FaultKind where
  | none | outOfRange | unknownInstruction
deriving DecidableEq, Repr

/-- The fault record (R22). `byte` is 8 bits with a valid bit: `Option.none` is the spec's own "invalid". -/
structure FaultRecord where
  kind : FaultKind
  addr : Word
  byte : Option Byte
deriving DecidableEq, Repr

/-- The seven general registers, each an independent cell (R13). -/
structure RegFile where
  b : Byte
  c : Byte
  d : Byte
  e : Byte
  h : Byte
  l : Byte
  a : Byte
deriving DecidableEq, Repr

/-- The bytes of the memory window, by bus address, addresses rising; an address not listed holds `0x00`. -/
abbrev Memory := List Host.Cell

/-- Everything the spec gives the machine. -/
structure State where
  regs : RegFile
  pc : Word
  sp : Word
  run : RunState
  fault : FaultRecord
  mem : Memory
deriving DecidableEq, Repr

/-- Why the model could stop where the spec gives no next state. The spec's two fault kinds are NOT here:
raising one is a next state whose `run` is Faulted (R88; log 6). -/
inductive Fault where
  /-- An AddressableMemory access at an index outside the window: "undefined behavior at this layer by
  design" (R36, open point U1). No definition raises it, since the bus gate answers first (log 17); safe. -/
  | memoryIndexOutsideWindow (index : Nat)
deriving DecidableEq, Repr

/-- Why the model could give an instruction, or a move of the host, no meaning. -/
inductive Refusal where
  /-- An arm of `exec` that is not modelled yet; no arm raises it, every row has its meaning; safe. -/
  | notModelled (mnemonic : String)
  /-- A loader write after execution has begun: "the spec gives them no move" (R103, decision D20, open point U12).
  Raised by `hostMove` alone, never by an instruction or a step; unsafe for an embedding that writes memory during a
  run (log 11). -/
  | loadAfterExecutionBegan
deriving DecidableEq, Repr

/-- What a step answers. -/
abbrev Result := Host.Outcome State Fault Refusal

/-- Reset with the parameter `RESET_REGS` (R30): every other field is as R31 and R47 state. -/
def State.resetWith (regs : RegFile) (sp : Word) : State where
  regs := regs
  pc := Config.base
  sp := sp
  run := .running
  fault := ⟨.none, 0x0000, none⟩
  mem := []

/-- The state after reset (R99), with the spec's own values for `RESET_REGS` (decision D2; log 1). -/
def State.reset : State :=
  State.resetWith
    { b := Config.resetRegister, c := Config.resetRegister, d := Config.resetRegister,
      e := Config.resetRegister, h := Config.resetRegister, l := Config.resetRegister,
      a := Config.resetRegister }
    Config.resetSp

end Sys2Proof.Machine
end

