-- ==== Sys2Proof/Machine/Memory.lean ====
section
/-! DEFINITION. The AddressableMemory and the Bus gate in front of it (spec 20_memory.md). The memory is one
canonical list: addresses strictly rising and inside the window, no cell holding `0x00`, which is what an
unlisted window address holds (R47; log 8). -/
namespace Sys2Proof.Machine

/-! ## The AddressableMemory -/

/-- The byte stored for an address. -/
def Memory.byteAt : Memory → Nat → Byte
  | [], _ => 0x00
  | (k, v) :: m, a => if k = a then v else Memory.byteAt m a

/-- `v` stored at `a` in a list with rising addresses, before the first larger address. -/
def Memory.insert : Memory → Nat → Byte → Memory
  | [], a, v => [(a, v)]
  | (k, w) :: m, a, v =>
    if a < k then (a, v) :: (k, w) :: m
    else if a = k then (a, v) :: m
    else (k, w) :: Memory.insert m a v

/-- `mem[a - BASE] <- v` (R35); storing what an unlisted address holds removes the cell. -/
def Memory.setByte (m : Memory) (a : Nat) (v : Byte) : Memory :=
  if v = 0x00 then m.filter (fun cell => cell.1 != a) else Memory.insert m a v

/-- The cells lie in the window from address `lo` up, strictly rising, none holding `0x00`. -/
def Memory.wfFrom : Nat → Memory → Bool
  | _, [] => true
  | lo, (k, v) :: m =>
    decide (lo ≤ k) && decide (k < Config.base.toNat + Config.size) && v != 0x00 && Memory.wfFrom (k + 1) m

/-- The canonical form of memory, so that equal memories are equal lists. -/
def Memory.wf (m : Memory) : Bool := Memory.wfFrom Config.base.toNat m

/-! ## The Bus -/

/-- The bus's answer to a transaction: `Ok` or `OutOfRange` (10_state.md R27). -/
inductive Reply (α : Type) where
  | ok (value : α)
  | outOfRange
deriving DecidableEq, Repr

/-- The gate's check, `BASE <= addr and addr <= BASE + SIZE - 1` (R34, R35). -/
def inWindow (addr : Word) : Bool :=
  decide (Config.base.toNat ≤ addr.toNat) && decide (addr.toNat ≤ Config.base.toNat + Config.size - 1)

/-- An address of the window `[BASE, BASE+SIZE-1]` (R33). -/
abbrev InWindow (addr : Word) : Prop := inWindow addr = true

/-- `MemRead(addr, 1)`: the one gate for every read (R34, R36). -/
def memRead (m : Memory) (addr : Word) : Reply Byte :=
  if InWindow addr then .ok (m.byteAt addr.toNat) else .outOfRange

/-- `MemWrite(addr, 1, value)`: the one gate for every write (R35, R36). -/
def memWrite (m : Memory) (addr : Word) (value : Byte) : Reply Memory :=
  if InWindow addr then .ok (m.setByte addr.toNat value) else .outOfRange

/-- Bus writes of consecutive bytes from `addr` up, each of its own; a rejected one changes nothing. -/
def memWriteBytes (m : Memory) (addr : Word) : List Byte → Memory
  | [] => m
  | v :: vs =>
    match memWrite m addr v with
    | .ok m' => memWriteBytes m' (addr + 1) vs
    | .outOfRange => memWriteBytes m (addr + 1) vs

end Sys2Proof.Machine
end

