-- ==== Sys2Proof/Machine/Ops.lean ====
section
/-! DEFINITION. The shared operations over the state: the register-file multiplexer (spec 10_state.md R14 to
R17), the program-counter incrementer and operand fetch (40_cycle.md R64, R67, R68), raising a fault
(60_exceptions.md R86 to R88), and the fetch of one whole instruction (40_cycle.md R66). -/
namespace Sys2Proof.Machine

/-! ## Register-file multiplexer -/

/-- `x[c]` for the register a code names (R15). -/
def State.readReg (s : State) : Reg → Byte
  | .b => s.regs.b | .c => s.regs.c | .d => s.regs.d | .e => s.regs.e
  | .h => s.regs.h | .l => s.regs.l | .a => s.regs.a

/-- One register replaced, every other kept (R16). -/
def RegFile.write (r : RegFile) (v : Byte) : Reg → RegFile
  | .b => { r with b := v } | .c => { r with c := v } | .d => { r with d := v } | .e => { r with e := v }
  | .h => { r with h := v } | .l => { r with l := v } | .a => { r with a := v }

/-- `x[c] <- v` (R16). -/
def State.writeReg (s : State) (r : Reg) (v : Byte) : State := { s with regs := s.regs.write v r }

/-- The multiplexer's read port, by code; code `110` has no register slot (R14, R15). -/
def State.readPort (s : State) (code : BitVec 3) : Option Byte := (Reg.ofCode code).map s.readReg

/-- The multiplexer's write port, by code; code `110` has no register slot (R14, R16). -/
def State.writePort (s : State) (code : BitVec 3) (v : Byte) : Option State :=
  (Reg.ofCode code).map (s.writeReg · v)

/-- A register pair as a view: the first-named register is the high byte (R17). -/
def State.pair (s : State) (p : Pair) : Word := cat (s.readReg p.highReg) (s.readReg p.lowReg)

/-- Both halves of a pair, the high byte to the first-named register (R17, R80). -/
def State.writePair (s : State) (p : Pair) (w : Word) : State :=
  (s.writeReg p.highReg (highByte w)).writeReg p.lowReg (lowByte w)

/-- The M pointer `cat(H, L)` (R14, R72). -/
def State.hl (s : State) : Word := s.pair .hl

/-! ## Program-counter incrementer -/

/-- `pc <- pc + 1`, 16 bits (R67, R68, R71). -/
def State.incPc (s : State) : State := { s with pc := s.pc + 1 }

/-! ## Raising a fault -/

/-- `raise K(info)`: the fault record and `run`, and nothing else (R88). There is no return from a fault: only
reset leaves Faulted (R91), so no operation stands beside it. -/
def State.raise (s : State) (kind : FaultKind) (addr : Word) (byte : Option Byte) : State :=
  { s with run := .faulted, fault := ⟨kind, addr, byte⟩ }

/-- `raise OutOfRange(addr)` inside the instruction with opcode `op`; none at an opcode fetch (R86). -/
def State.raiseOutOfRange (s : State) (addr : Word) (op : Option Byte) : State :=
  s.raise .outOfRange addr op

/-- `raise UnknownInstruction(op)` at the opcode address (R87). -/
def State.raiseUnknownInstruction (s : State) (op : Byte) : State :=
  s.raise .unknownInstruction s.pc (some op)

/-! ## Fetch -/

/-- What a fetch transaction leaves: the value and the state that goes on, or the state after a fault. -/
inductive Fetched (α : Type) where
  | ok (value : α) (s : State)
  | raised (s : State)
deriving DecidableEq, Repr

/-- The opcode fetch (R64). -/
def fetchOpcode (s : State) : Fetched Byte :=
  match memRead s.mem s.pc with
  | .ok op => .ok op s
  | .outOfRange => .raised (s.raiseOutOfRange s.pc none)

/-- `FetchNext()` inside the instruction with opcode `op`: the read first, the advance only after it (R67). -/
def fetchNext (op : Byte) (s : State) : Fetched Byte :=
  match memRead s.mem (s.pc + 1) with
  | .ok v => .ok v s.incPc
  | .outOfRange => .raised (s.raiseOutOfRange (s.pc + 1) (some op))

/-- The operand bytes of an instruction, the low byte first (R54); a byte that the format lacks is `0`. -/
def fetchOperands (op : Byte) : Nat → State → Fetched (Byte × Byte)
  | 0, s => .ok (0, 0) s
  | 1, s =>
    match fetchNext op s with
    | .ok low s => .ok (low, 0) s
    | .raised s => .raised s
  | _, s =>
    match fetchNext op s with
    | .ok low s =>
      match fetchNext op s with
      | .ok high s => .ok (low, high) s
      | .raised s => .raised s
    | .raised s => .raised s

/-- The fetch and decoding of one whole instruction, in the order of R66 and R90: opcode fetch, unknown
opcode, operand fetches. `HALT` decodes from its byte alone (R65). -/
def fetchInstr (s : State) : Fetched Instr :=
  match fetchOpcode s with
  | .raised s => .raised s
  | .ok op s =>
    match decodeOpcode op with
    | none => .raised (s.raiseUnknownInstruction op)
    | some r =>
      match fetchOperands op r.format.operandBytes s with
      | .raised s => .raised s
      | .ok (low, high) s =>
        match r.instr? op low high with
        | some i => .ok i s
        | none => .raised (s.raiseUnknownInstruction op)

/-- The instruction whose bits are `w` (numbered as the opcode table numbers them) stored at `pc`, and the
block in Running, which is all that the next step's fetch needs. -/
def State.placeInstr (s : State) (nbits w : Nat) : State :=
  { s with mem := memWriteBytes s.mem s.pc (tableBytes nbits w), run := .running }

end Sys2Proof.Machine
end

