-- ==== Sys2Proof/Machine/Operands.lean ====
section
/-! DEFINITION. The addressing-mode resolver (spec 40_cycle.md R72) and the two shapes every instruction
body has: a byte moved from one operand to another (`MOV`, `MVI`, `LDA`, `STA`), and a 16-bit immediate
loaded into a pair or `sp` (`LXI`). A body writes its destination after all of its reads (R70). -/
namespace Sys2Proof.Machine

/-- Where a byte comes from: register-direct, memory at an effective address, immediate (R72). -/
inductive Source where
  | register (r : Reg)
  | memory (ea : Word)
  | immediate (v : Byte)
deriving DecidableEq, Repr

/-- Where a byte goes: register-direct, or memory at an effective address (R72). -/
inductive Dest where
  | register (r : Reg)
  | memory (ea : Word)
deriving DecidableEq, Repr

/-- The memory operand M as a source: register-indirect through H:L (R72). -/
def State.sourceM (s : State) : Source := .memory s.hl

/-- The memory operand M as a destination: register-indirect through H:L (R72). -/
def State.destM (s : State) : Dest := .memory s.hl

/-- The bus address of an operand, where it has one. -/
def Source.address : Source → Option Word
  | .register _ => none | .memory ea => some ea | .immediate _ => none

/-- The bus address of a destination, where it has one. -/
def Dest.address : Dest → Option Word
  | .register _ => none | .memory ea => some ea

/-- The byte of a source; a memory source is one bus read (R34). -/
def State.readSource (s : State) : Source → Reply Byte
  | .register r => .ok (s.readReg r)
  | .memory ea => memRead s.mem ea
  | .immediate v => .ok v

/-- A byte written to a destination; a memory destination is one bus write (R35). -/
def State.writeDest (s : State) (v : Byte) : Dest → Reply State
  | .register r => .ok (s.writeReg r v)
  | .memory ea =>
    match memWrite s.mem ea v with
    | .ok m => .ok { s with mem := m }
    | .outOfRange => .outOfRange

/-- The fault of a data access: OutOfRange at the effective address, with the instruction's opcode (R86). -/
def State.raiseDataFault (s : State) (op : Byte) (ea : Option Word) : State :=
  s.raiseOutOfRange (ea.getD 0) (some op)

/-- The rest of a body whose operand bytes are consumed: read the source, write the destination, advance `pc`
(R68); the access that the bus rejects raises OutOfRange and ends the step with `pc` frozen (R88, R89). -/
def moveByte (op : Byte) (dst : Dest) (src : Source) (s : State) : Result :=
  match s.readSource src with
  | .outOfRange => .next (s.raiseDataFault op src.address)
  | .ok v =>
    match s.writeDest v dst with
    | .outOfRange => .next (s.raiseDataFault op dst.address)
    | .ok t => .next t.incPc

/-- `n` operand bytes consumed: `pc` names the last byte fetched (R67). Their values stand in the instruction,
and their fetch succeeded before the body was reached (`fetchInstr`; log 9). -/
def State.consume : Nat → State → State
  | 0, s => s
  | n + 1, s => State.consume n s.incPc

end Sys2Proof.Machine
end

