-- ==== Sys2Proof/Machine/Direct.lean ====
section
/-! DEFINITION. Direct memory load and store (spec 43_direct.md). -/
namespace Sys2Proof.Machine

/-- `LDA addr16` (`0x3A`, R82): A from the byte at `addr16`. -/
def execLda (addr16 : Word) (s : State) : Result :=
  moveByte (Form.lda addr16).opcode (.register .a) (.memory addr16) (s.consume 2)

/-- `STA addr16` (`0x32`, R83): A into the byte at `addr16`. -/
def execSta (addr16 : Word) (s : State) : Result :=
  moveByte (Form.sta addr16).opcode (.memory addr16) (.register .a) (s.consume 2)

end Sys2Proof.Machine
end

