-- ==== Sys2Proof/Machine/Halt.lean ====
section
/-! DEFINITION. Halt (spec 44_halt.md). -/
namespace Sys2Proof.Machine

/-- `HALT` (`0x76`, R84): `run <- Halted`; `pc` stays at the HALT byte and nothing else changes (R65). -/
def execHalt (s : State) : Result := .next { s with run := .halted }

end Sys2Proof.Machine
end

