-- ==== Sys2Proof/Machine/Immediate.lean ====
section
/-! DEFINITION. Immediate loads (spec 42_immediate.md): the `MVI` and `LXI` forms, and one meaning per
opcode. The operand bytes are consumed first (R67), then the destination is written (R70). -/
namespace Sys2Proof.Machine

/-- `MVI r,data8` (R78). -/
def mviR (dst : Reg) (data8 : Byte) (s : State) : Result :=
  moveByte (Form.mviR dst.code data8).opcode (.register dst) (.immediate data8) (s.consume 1)

/-- `MVI M,data8` (R79): the immediate into the byte at `cat(H, L)`. -/
def mviM (data8 : Byte) (s : State) : Result :=
  moveByte (Form.mviM data8).opcode (s.consume 1).destM (.immediate data8) (s.consume 1)

/-- `LXI rp,data16` with `rp` one of B, D, H (R80). -/
def lxiRp (p : Pair) (data16 : Word) (s : State) : Result :=
  .next ((s.consume 2).writePair p data16).incPc

/-- `LXI SP,data16` (R81). -/
def lxiSp (data16 : Word) (s : State) : Result :=
  .next { s.consume 2 with sp := data16 }.incPc

/-- `LXI B,data16` (`0x01`, R80). -/
def execLxiB (data16 : Word) (s : State) : Result := lxiRp .bc data16 s
/-- `MVI B,data8` (`0x06`, R78). -/
def execMviB (data8 : Byte) (s : State) : Result := mviR .b data8 s
/-- `MVI C,data8` (`0x0E`, R78). -/
def execMviC (data8 : Byte) (s : State) : Result := mviR .c data8 s
/-- `LXI D,data16` (`0x11`, R80). -/
def execLxiD (data16 : Word) (s : State) : Result := lxiRp .de data16 s
/-- `MVI D,data8` (`0x16`, R78). -/
def execMviD (data8 : Byte) (s : State) : Result := mviR .d data8 s
/-- `MVI E,data8` (`0x1E`, R78). -/
def execMviE (data8 : Byte) (s : State) : Result := mviR .e data8 s
/-- `LXI H,data16` (`0x21`, R80). -/
def execLxiH (data16 : Word) (s : State) : Result := lxiRp .hl data16 s
/-- `MVI H,data8` (`0x26`, R78). -/
def execMviH (data8 : Byte) (s : State) : Result := mviR .h data8 s
/-- `MVI L,data8` (`0x2E`, R78). -/
def execMviL (data8 : Byte) (s : State) : Result := mviR .l data8 s
/-- `LXI SP,data16` (`0x31`, R81). -/
def execLxiSP (data16 : Word) (s : State) : Result := lxiSp data16 s
/-- `MVI M,data8` (`0x36`, R79). -/
def execMviM (data8 : Byte) (s : State) : Result := mviM data8 s
/-- `MVI A,data8` (`0x3E`, R78). -/
def execMviA (data8 : Byte) (s : State) : Result := mviR .a data8 s

end Sys2Proof.Machine
end

