-- ==== Sys2Proof/Machine/Mov.lean ====
section
/-! DEFINITION. Register moves (spec 41_mov.md): the three `MOV` forms, and one meaning per opcode. -/
namespace Sys2Proof.Machine

/-- `MOV r1,r2` (R75): `x[ddd] <- x[sss]`. -/
def movRR (dst src : Reg) (s : State) : Result :=
  moveByte (Form.movRR dst.code src.code).opcode (.register dst) (.register src) s

/-- `MOV r,M` (R76): the byte at `cat(H, L)` into a register. -/
def movRM (dst : Reg) (s : State) : Result :=
  moveByte (Form.movRM dst.code).opcode (.register dst) s.sourceM s

/-- `MOV M,r` (R77): a register into the byte at `cat(H, L)`. -/
def movMR (src : Reg) (s : State) : Result :=
  moveByte (Form.movMR src.code).opcode s.destM (.register src) s

/-- `MOV B,B` (`0x40`, R75). -/
def execMovBB (s : State) : Result := movRR .b .b s
/-- `MOV B,C` (`0x41`, R75). -/
def execMovBC (s : State) : Result := movRR .b .c s
/-- `MOV B,D` (`0x42`, R75). -/
def execMovBD (s : State) : Result := movRR .b .d s
/-- `MOV B,E` (`0x43`, R75). -/
def execMovBE (s : State) : Result := movRR .b .e s
/-- `MOV B,H` (`0x44`, R75). -/
def execMovBH (s : State) : Result := movRR .b .h s
/-- `MOV B,L` (`0x45`, R75). -/
def execMovBL (s : State) : Result := movRR .b .l s
/-- `MOV B,M` (`0x46`, R76). -/
def execMovBM (s : State) : Result := movRM .b s
/-- `MOV B,A` (`0x47`, R75). -/
def execMovBA (s : State) : Result := movRR .b .a s
/-- `MOV C,B` (`0x48`, R75). -/
def execMovCB (s : State) : Result := movRR .c .b s
/-- `MOV C,C` (`0x49`, R75). -/
def execMovCC (s : State) : Result := movRR .c .c s
/-- `MOV C,D` (`0x4A`, R75). -/
def execMovCD (s : State) : Result := movRR .c .d s
/-- `MOV C,E` (`0x4B`, R75). -/
def execMovCE (s : State) : Result := movRR .c .e s
/-- `MOV C,H` (`0x4C`, R75). -/
def execMovCH (s : State) : Result := movRR .c .h s
/-- `MOV C,L` (`0x4D`, R75). -/
def execMovCL (s : State) : Result := movRR .c .l s
/-- `MOV C,M` (`0x4E`, R76). -/
def execMovCM (s : State) : Result := movRM .c s
/-- `MOV C,A` (`0x4F`, R75). -/
def execMovCA (s : State) : Result := movRR .c .a s
/-- `MOV D,B` (`0x50`, R75). -/
def execMovDB (s : State) : Result := movRR .d .b s
/-- `MOV D,C` (`0x51`, R75). -/
def execMovDC (s : State) : Result := movRR .d .c s
/-- `MOV D,D` (`0x52`, R75). -/
def execMovDD (s : State) : Result := movRR .d .d s
/-- `MOV D,E` (`0x53`, R75). -/
def execMovDE (s : State) : Result := movRR .d .e s
/-- `MOV D,H` (`0x54`, R75). -/
def execMovDH (s : State) : Result := movRR .d .h s
/-- `MOV D,L` (`0x55`, R75). -/
def execMovDL (s : State) : Result := movRR .d .l s
/-- `MOV D,M` (`0x56`, R76). -/
def execMovDM (s : State) : Result := movRM .d s
/-- `MOV D,A` (`0x57`, R75). -/
def execMovDA (s : State) : Result := movRR .d .a s
/-- `MOV E,B` (`0x58`, R75). -/
def execMovEB (s : State) : Result := movRR .e .b s
/-- `MOV E,C` (`0x59`, R75). -/
def execMovEC (s : State) : Result := movRR .e .c s
/-- `MOV E,D` (`0x5A`, R75). -/
def execMovED (s : State) : Result := movRR .e .d s
/-- `MOV E,E` (`0x5B`, R75). -/
def execMovEE (s : State) : Result := movRR .e .e s
/-- `MOV E,H` (`0x5C`, R75). -/
def execMovEH (s : State) : Result := movRR .e .h s
/-- `MOV E,L` (`0x5D`, R75). -/
def execMovEL (s : State) : Result := movRR .e .l s
/-- `MOV E,M` (`0x5E`, R76). -/
def execMovEM (s : State) : Result := movRM .e s
/-- `MOV E,A` (`0x5F`, R75). -/
def execMovEA (s : State) : Result := movRR .e .a s
/-- `MOV H,B` (`0x60`, R75). -/
def execMovHB (s : State) : Result := movRR .h .b s
/-- `MOV H,C` (`0x61`, R75). -/
def execMovHC (s : State) : Result := movRR .h .c s
/-- `MOV H,D` (`0x62`, R75). -/
def execMovHD (s : State) : Result := movRR .h .d s
/-- `MOV H,E` (`0x63`, R75). -/
def execMovHE (s : State) : Result := movRR .h .e s
/-- `MOV H,H` (`0x64`, R75). -/
def execMovHH (s : State) : Result := movRR .h .h s
/-- `MOV H,L` (`0x65`, R75). -/
def execMovHL (s : State) : Result := movRR .h .l s
/-- `MOV H,M` (`0x66`, R76). -/
def execMovHM (s : State) : Result := movRM .h s
/-- `MOV H,A` (`0x67`, R75). -/
def execMovHA (s : State) : Result := movRR .h .a s
/-- `MOV L,B` (`0x68`, R75). -/
def execMovLB (s : State) : Result := movRR .l .b s
/-- `MOV L,C` (`0x69`, R75). -/
def execMovLC (s : State) : Result := movRR .l .c s
/-- `MOV L,D` (`0x6A`, R75). -/
def execMovLD (s : State) : Result := movRR .l .d s
/-- `MOV L,E` (`0x6B`, R75). -/
def execMovLE (s : State) : Result := movRR .l .e s
/-- `MOV L,H` (`0x6C`, R75). -/
def execMovLH (s : State) : Result := movRR .l .h s
/-- `MOV L,L` (`0x6D`, R75). -/
def execMovLL (s : State) : Result := movRR .l .l s
/-- `MOV L,M` (`0x6E`, R76). -/
def execMovLM (s : State) : Result := movRM .l s
/-- `MOV L,A` (`0x6F`, R75). -/
def execMovLA (s : State) : Result := movRR .l .a s
/-- `MOV M,B` (`0x70`, R77). -/
def execMovMB (s : State) : Result := movMR .b s
/-- `MOV M,C` (`0x71`, R77). -/
def execMovMC (s : State) : Result := movMR .c s
/-- `MOV M,D` (`0x72`, R77). -/
def execMovMD (s : State) : Result := movMR .d s
/-- `MOV M,E` (`0x73`, R77). -/
def execMovME (s : State) : Result := movMR .e s
/-- `MOV M,H` (`0x74`, R77). -/
def execMovMH (s : State) : Result := movMR .h s
/-- `MOV M,L` (`0x75`, R77). -/
def execMovML (s : State) : Result := movMR .l s
/-- `MOV M,A` (`0x77`, R77). -/
def execMovMA (s : State) : Result := movMR .a s
/-- `MOV A,B` (`0x78`, R75). -/
def execMovAB (s : State) : Result := movRR .a .b s
/-- `MOV A,C` (`0x79`, R75). -/
def execMovAC (s : State) : Result := movRR .a .c s
/-- `MOV A,D` (`0x7A`, R75). -/
def execMovAD (s : State) : Result := movRR .a .d s
/-- `MOV A,E` (`0x7B`, R75). -/
def execMovAE (s : State) : Result := movRR .a .e s
/-- `MOV A,H` (`0x7C`, R75). -/
def execMovAH (s : State) : Result := movRR .a .h s
/-- `MOV A,L` (`0x7D`, R75). -/
def execMovAL (s : State) : Result := movRR .a .l s
/-- `MOV A,M` (`0x7E`, R76). -/
def execMovAM (s : State) : Result := movRM .a s
/-- `MOV A,A` (`0x7F`, R75). -/
def execMovAA (s : State) : Result := movRR .a .a s

end Sys2Proof.Machine
end

