-- ==== Sys2Proof/Machine/Step.lean ====
section
/-! DEFINITION. One `step` (spec 40_cycle.md R63, R66), and the placing of an instruction for the next fetch. -/
namespace Sys2Proof.Machine

/-- `step`: nothing in Halted or Faulted (R63; log 16); in Running, fetch and decode one instruction and run its body,
or end in the fault that the fetch or the decoding raised (R66). -/
def step (s : State) : Host.Outcome State Fault Refusal :=
  match s.run with
  | .halted => .next s
  | .faulted => .next s
  | .running =>
    match fetchInstr s with
    | .raised t => .next t
    | .ok i _ => exec i s

/-- The state whose next step fetches and runs the instruction with bits `w` (log 10). -/
def State.withFetchWord (s : State) (nbits w : Nat) : State := s.placeInstr nbits w

end Sys2Proof.Machine
end

