-- ==== Sys2Proof/Machine/Sequencer.lean ====
section
/-! DEFINITION. The bus transactions of one step, in order (spec 20_memory.md R41): what the bus read/write
sequencer issues. They are a view of a step, not state (log 12). -/
namespace Sys2Proof.Machine

/-- One bus transaction with the bus's answer (10_state.md R27). -/
inductive Transaction where
  | read (addr : Word) (reply : Reply Byte)
  | write (addr : Word) (value : Byte) (reply : Reply Unit)
deriving DecidableEq, Repr

/-- The address a transaction presents to the bus. -/
def Transaction.addr : Transaction → Word
  | .read a _ => a | .write a _ _ => a

/-- The bus answered `OutOfRange`. -/
def Transaction.rejected : Transaction → Bool
  | .read _ .outOfRange => true | .read _ (.ok _) => false
  | .write _ _ .outOfRange => true | .write _ _ (.ok _) => false

/-- What a transaction does to memory: a write that the bus accepted stores its byte (R35, R43). -/
def Transaction.applyTo (t : Transaction) (m : Memory) : Memory :=
  match t with
  | .read _ _ => m
  | .write a v _ => match memWrite m a v with
    | .ok m' => m'
    | .outOfRange => m

/-- A bus read of the state's memory. -/
def State.readTransaction (s : State) (addr : Word) : Transaction := .read addr (memRead s.mem addr)

/-- A bus write to the state's memory. -/
def State.writeTransaction (s : State) (addr : Word) (v : Byte) : Transaction :=
  .write addr v (match memWrite s.mem addr v with | .ok _ => .ok () | .outOfRange => .outOfRange)

/-- The operand reads from `addr` up, ended by the first rejected one (R41, R67). -/
def operandTransactions (m : Memory) : Nat → Word → List Transaction
  | 0, _ => []
  | n + 1, addr =>
    match memRead m addr with
    | .ok v => .read addr (.ok v) :: operandTransactions m n (addr + 1)
    | .outOfRange => [.read addr .outOfRange]

/-- The data transaction of an instruction, from the state its step begins in (R41, last column). -/
def dataTransactions (i : Instr) (s : State) : List Transaction :=
  match i.form with
  | .movRR _ _ => []
  | .movRM _ => [s.readTransaction s.hl]
  | .movMR sss => ((s.readPort sss).map (s.writeTransaction s.hl)).toList
  | .mviR _ _ => []
  | .mviM data8 => [s.writeTransaction s.hl data8]
  | .lxiRp _ _ => []
  | .lxiSp _ => []
  | .lda addr16 => [s.readTransaction addr16]
  | .sta addr16 => [s.writeTransaction addr16 s.regs.a]
  | .halt => []

/-- The transactions after the opcode read, for the opcode read. -/
def transactionsAfter (op : Byte) (s : State) : List Transaction :=
  match decodeOpcode op with
  | none => []
  | some r =>
    operandTransactions s.mem r.format.operandBytes (s.pc + 1) ++
      match fetchInstr s with
      | .ok i _ => dataTransactions i s
      | .raised _ => []

/-- The bus transactions of the next step, in order; none in Halted or Faulted (R63). -/
def busTrace (s : State) : List Transaction :=
  match s.run with
  | .halted => []
  | .faulted => []
  | .running =>
    s.readTransaction s.pc ::
      match memRead s.mem s.pc with
      | .ok op => transactionsAfter op s
      | .outOfRange => []

end Sys2Proof.Machine
end

