-- ==== Sys2Proof/Machine/Ports.lean ====
section
/-! DEFINITION. The control port, the observation port and the host's moves (spec 10_state.md R28, R29;
70_reset_and_hazards.md R98 to R105). The host acts only between steps (R103). -/
namespace Sys2Proof.Machine

/-! ## Numeric codes -/

/-- The block's code of a run state (R20, the spec's decision D6; log 3). -/
def RunState.code : RunState → BitVec 2
  | .running => 0 | .halted => 1 | .faulted => 2

/-- `fault_kind` (R22, R85, the spec's decision D6; log 3). -/
def FaultKind.code : FaultKind → BitVec 2
  | .none => 0 | .outOfRange => 1 | .unknownInstruction => 2

/-! ## Observation port -/

/-- What the observation port shows (R28). -/
structure Observation where
  a : Byte
  b : Byte
  c : Byte
  d : Byte
  e : Byte
  h : Byte
  l : Byte
  pc : Word
  sp : Word
  run : BitVec 2
  faultKind : BitVec 2
  faultAddr : Word
  faultByte : Option Byte
deriving DecidableEq, Repr

/-- The read-only accessors, sampled between steps; they change no state (R28). -/
def observe (s : State) : Observation where
  a := s.readReg .a
  b := s.readReg .b
  c := s.readReg .c
  d := s.readReg .d
  e := s.readReg .e
  h := s.readReg .h
  l := s.readReg .l
  pc := s.pc
  sp := s.sp
  run := s.run.code
  faultKind := s.fault.kind.code
  faultAddr := s.fault.addr
  faultByte := s.fault.byte

/-! ## Loading -/

/-- One loader write through the bus gate: `OutOfRange` goes back to the loader and changes nothing (R103). When the
host has this move, `hostMove` says. -/
def State.load (s : State) (addr : Word) (v : Byte) : State × Reply Unit :=
  match memWrite s.mem addr v with
  | .ok m => ({ s with mem := m }, .ok ())
  | .outOfRange => (s, .outOfRange)

/-- The loader's writes, in order (R101). -/
def State.loadAll (s : State) : List (Word × Byte) → State
  | [] => s
  | (addr, v) :: image => State.loadAll (s.load addr v).1 image

/-! ## Execution -/

/-- `execute(N)`: `step` repeated while Running, at most `n` times (R104). -/
def executeUpTo : Nat → State → Result
  | 0, s => .next s
  | n + 1, s =>
    match s.run with
    | .halted => .next s
    | .faulted => .next s
    | .running =>
      match step s with
      | .next t => executeUpTo n t
      | .fault r => .fault r
      | .refused r => .refused r

/-- `execute` with the host's limit, or to completion: no run is longer than `SIZE + 1` steps (R105). -/
def execute (limit : Option Nat) (s : State) : Result := executeUpTo (limit.getD (Config.size + 1)) s

/-- The host's boot order: reset, then loading, then execution (R101). -/
def boot (image : List (Word × Byte)) (limit : Option Nat) : Result :=
  execute limit (State.reset.loadAll image)

/-! ## The host's moves -/

/-- The block as the host has it: `begun` says whether execution has begun since the last reset, which is what
decides whether the host may still load (R101, R103). No instruction and no port of the block shows it, so it is the
host's and no field of `State` (log 11). -/
structure Session where
  block : State
  begun : Bool
deriving DecidableEq, Repr

/-- A block right after construction or reset (R32, R98, R99). -/
def Session.initial : Session := ⟨.reset, false⟩

/-- Everything the host can do to the block (R103): the control port's `reset` and `step`, loading,
`execute`, observing. -/
inductive HostMove where
  | reset
  | load (addr : Word) (v : Byte)
  | step
  | execute (limit : Option Nat)
  | observe
deriving DecidableEq, Repr

/-- What the block returns for a move (the table of R103). -/
inductive HostReply where
  | nothing
  | written (reply : Reply Unit)
  | observed (o : Observation)
deriving DecidableEq, Repr

/-- The session after the block has run. -/
def Session.ran : Result → Host.Outcome (Session × HostReply) Fault Refusal
  | .next t => .next (⟨t, true⟩, .nothing)
  | .fault r => .fault r
  | .refused r => .refused r

/-- One move (R99, R103, R104). Once execution has begun the host has no load move until the next reset (the
spec's decision D20, open point U12; log 11): that move is refused by name. -/
def hostMove (h : Session) : HostMove → Host.Outcome (Session × HostReply) Fault Refusal
  | .reset => .next (.initial, .nothing)
  | .load addr v =>
    if h.begun then .refused .loadAfterExecutionBegan
    else .next ({ h with block := (h.block.load addr v).1 }, .written (h.block.load addr v).2)
  | .step => Session.ran (Sys2Proof.Machine.step h.block)
  | .execute limit => Session.ran (Sys2Proof.Machine.execute limit h.block)
  | .observe => .next (h, .observed (Sys2Proof.Machine.observe h.block))

/-- Moves in order, with their replies. -/
def hostMoves (h : Session) : List HostMove → Host.Outcome (Session × List HostReply) Fault Refusal
  | [] => .next (h, [])
  | move :: moves =>
    match hostMove h move with
    | .fault r => .fault r
    | .refused r => .refused r
    | .next (k, reply) =>
      match hostMoves k moves with
      | .fault r => .fault r
      | .refused r => .refused r
      | .next (l, replies) => .next (l, reply :: replies)

/-- Whether a sequence of moves keeps the interface: no load once execution has begun since the last reset
(R101, R103; `begun` says whether it has). -/
def movesLegal : (begun : Bool) → List HostMove → Bool
  | _, [] => true
  | _, .reset :: moves => movesLegal false moves
  | begun, .load _ _ :: moves => !begun && movesLegal begun moves
  | _, .step :: moves => movesLegal true moves
  | _, .execute _ :: moves => movesLegal true moves
  | begun, .observe :: moves => movesLegal begun moves

end Sys2Proof.Machine
end

