-- ==== Sys2Proof/Safety.lean ====
section
/-! DEFINITION. What a well-kept state and a safe run are, in the terms the statements use: the invariant of
the block (canonical memory, the program-counter range of spec 40_cycle.md R71, a coherent halt and fault
record), that of the host's session around it, and the two ways a run ends (70_reset_and_hazards.md R105). -/
namespace Sys2Proof.Machine

/-! ## The terms of the statements -/

/-- The bytes `bs` stand in the window at and after `pc` (R48). -/
def State.BytesAt (s : State) (bs : List Byte) : Prop :=
  ∀ k (h : k < bs.length), memRead s.mem (s.pc + BitVec.ofNat 16 k) = .ok bs[k]

/-- The registers an instruction writes (the table of 10_state.md R18). -/
def registersWritten (i : Instr) : List Reg :=
  match i.form with
  | .movRR ddd _ => (Reg.ofCode ddd).toList
  | .movRM ddd => (Reg.ofCode ddd).toList
  | .movMR _ => []
  | .mviR ddd _ => (Reg.ofCode ddd).toList
  | .mviM _ => []
  | .lxiRp pp _ => ((Pair.ofCode pp).map (fun p => [p.highReg, p.lowReg])).getD []
  | .lxiSp _ => []
  | .lda _ => [.a]
  | .sta _ => []
  | .halt => []

/-- The address an instruction stores to, from the state its step begins in (R72). -/
def storeAddress (i : Instr) (s : State) : Option Word :=
  match i.form with
  | .movRR _ _ => none
  | .movRM _ => none
  | .movMR _ => s.destM.address
  | .mviR _ _ => none
  | .mviM _ => s.destM.address
  | .lxiRp _ _ => none
  | .lxiSp _ => none
  | .lda _ => none
  | .sta addr16 => some addr16
  | .halt => none

/-! ## The invariant -/

/-- `BASE <= pc <= BASE + SIZE` (R71). -/
def State.pcInRange (s : State) : Prop :=
  Config.base.toNat ≤ s.pc.toNat ∧ s.pc.toNat ≤ Config.base.toNat + Config.size

/-- In Halted, `pc` names a HALT byte (R65, R84). -/
def State.haltCoherent (s : State) : Prop :=
  s.run = .halted → memRead s.mem s.pc = .ok opcHalt

/-- In Faulted, the record is one that R86 or R87 writes: an address the bus rejects, with no byte where it is
the opcode fetch at `pc` and else the byte of a legal opcode; or the illegal opcode at `pc`. -/
def State.faultCoherent (s : State) : Prop :=
  s.run = .faulted →
    (s.fault.kind = .outOfRange ∧ ¬ InWindow s.fault.addr ∧
      ((s.fault.byte = none ∧ s.fault.addr = s.pc) ∨
        ∃ op, s.fault.byte = some op ∧ (decodeOpcode op).isSome = true ∧ InWindow s.pc)) ∨
    (s.fault.kind = .unknownInstruction ∧ s.fault.addr = s.pc ∧
      ∃ op, s.fault.byte = some op ∧ memRead s.mem s.pc = .ok op ∧ decodeOpcode op = none)

/-- The invariant of the block at a step boundary. -/
structure State.Inv (s : State) : Prop where
  memory : s.mem.wf = true
  pcRange : s.pcInRange
  halt : s.haltCoherent
  fault : s.faultCoherent

/-- The invariant of a session between the host's moves: the block's, and before execution has begun the block is
Running at its entry point (R99, R101). -/
structure Session.Inv (h : Session) : Prop where
  block : h.block.Inv
  entry : h.begun = false → h.block.run = .running ∧ h.block.pc = Config.base

/-! ## How a run ends -/

/-- The run from `s` reaches Halted, the successful end (R105). -/
def State.EndsHalted (s : State) : Prop := ∃ n t, executeUpTo n s = .next t ∧ t.run = .halted

/-- The run from `s` reaches Faulted, the failing end (R105). -/
def State.EndsFaulted (s : State) : Prop := ∃ n t, executeUpTo n s = .next t ∧ t.run = .faulted

end Sys2Proof.Machine
end

