-- ==== Sys2Proof/Certificates/Slice0/Obligations.lean ====
section
/-! DEFINITION. The statements about the model, for the provers. Statements range over every state, also states
no run reaches; the general forms `Instr.movRR`, `movRM`, `movMR`, `mviR` and `lxiRp` (Decode.lean) stand for
all the constructors of their form. -/

open Sys2Proof
open Sys2Proof.Machine

/-! ## Encoding -/

/-- Words written out bit by bit from the formats of R49 decode to the instruction they stand for, one or more
of each format; `0x76` is `HALT`, never MOV M,M (R56), and `0x00` is no instruction (R58). The opcodes of
`LDA` and `STA` are the spec's decision D1 (log 4), the pair codes its decision D12 (log 5). -/
def Obligations.SampleEncodingsDecode : Prop :=
  decode [0b01111000] = .instr .movAB [] ∧
  decode [0b01001110] = .instr .movCM [] ∧
  decode [0b01110111] = .instr .movMA [] ∧
  decode [0b00000110, 0x42] = .instr (.mviB 0x42) [] ∧
  decode [0b00110110, 0x5A] = .instr (.mviM 0x5A) [] ∧
  decode [0b00100001, 0x34, 0x12] = .instr (.lxiH 0x1234) [] ∧
  decode [0b00110001, 0xFF, 0x27] = .instr (.lxiSP 0x27FF) [] ∧
  decode [0b00111010, 0x00, 0x21] = .instr (.lda 0x2100) [] ∧
  decode [0b00110010, 0x00, 0x21] = .instr (.sta 0x2100) [] ∧
  decode [0b01110110] = .instr .halt [] ∧
  decode [0b00000000] = .rejected (.unknownInstruction 0x00)

/-- Decoding what the encoder wrote gives the instruction back and leaves the bytes after it, for all 78
instructions and all operand values (R49 to R57; no operand value is illegal, R59). -/
def Obligations.DecodeOfEncodeIsIdentity : Prop :=
  ∀ (i : Instr) (rest : List Byte), decode (encode i ++ rest) = .instr i rest

/-- What decodes to an instruction is that instruction's encoding: each instruction has one encoding and no
other bytes decode to it (R55, R56, R58, R59). -/
def Obligations.DecodedBytesAreTheEncoding : Prop :=
  ∀ (bytes rest : List Byte) (i : Instr), decode bytes = .instr i rest → bytes = encode i ++ rest

/-- An encoding has as many bytes as its opcode's format: 1 for `MOV` and `HALT`, 2 for `MVI`, 3 for `LXI`, `LDA`
and `STA`, and the decoder tells it from the opcode byte alone (R48, R57). -/
def Obligations.OpcodeAloneFixesTheLength : Prop :=
  ∀ i : Instr, (encode i).length = i.length ∧ 1 ≤ i.length ∧ i.length ≤ 3 ∧
    ∃ r, decodeOpcode i.form.opcode = some r ∧ r.format.length = i.length

/-- The 178 illegal bytes of R58, as the spec lists them (with the opcodes of decision D1; log 4). -/
def illegalOpcode (op : Byte) : Bool :=
  let n := op.toNat
  n == 0x00 || (0x02 ≤ n && n ≤ 0x05) || (0x07 ≤ n && n ≤ 0x0D) || (0x0F ≤ n && n ≤ 0x10) ||
  (0x12 ≤ n && n ≤ 0x15) || (0x17 ≤ n && n ≤ 0x1D) || (0x1F ≤ n && n ≤ 0x20) || (0x22 ≤ n && n ≤ 0x25) ||
  (0x27 ≤ n && n ≤ 0x2D) || (0x2F ≤ n && n ≤ 0x30) || (0x33 ≤ n && n ≤ 0x35) || (0x37 ≤ n && n ≤ 0x39) ||
  (0x3B ≤ n && n ≤ 0x3D) || n == 0x3F || 0x80 ≤ n

/-- Exactly the bytes that R58 lists select no row of the pattern table. The list assumes the opcodes of the spec's
decision D1 (log 4). -/
def Obligations.IllegalOpcodesAreAsListed : Prop :=
  ∀ op : Byte, decodeOpcode op = none ↔ illegalOpcode op = true

/-- No opcode byte selects two rows of the pattern table, so the rows' order does not matter (R56). -/
def Obligations.PatternRowsAreDisjoint : Prop :=
  ∀ op : Byte, (formRows.filter (fun r => r.selects op)).length ≤ 1

/-! ## The step -/

/-- In Running, when the bytes at `pc` (all inside the window) are those of an instruction, the step is the
instruction's body at that same state: nothing is added around `exec`, which itself moves `pc` past the
instruction (R66). -/
def Obligations.StepRunsDecodedInstruction : Prop :=
  ∀ (s : State) (bytes : List Byte) (i : Instr), s.run = .running → s.BytesAt bytes →
    decode bytes = .instr i [] → step s = exec i s

/-- An instruction given as bits and placed where the next step fetches is the one that step runs. The placing is
the model's own interface (log 10), on the coherent fetch of R46, the spec's decision D11 (log 19). -/
def Obligations.PlacedInstructionRunsNext : Prop :=
  ∀ (s : State) (nbits w : Nat) (i : Instr), InWindow s.pc → InWindow (s.pc + 2) →
    decodeTableWord nbits w = some i → step (s.withFetchWord nbits w) = exec i (s.withFetchWord nbits w)

/-- A step in Halted or Faulted changes nothing and makes no bus transaction. That it is a no-op and not an error
is the spec's own choice, decision D7 (log 16). -/
def Obligations.StoppedStepChangesNothing : Prop :=
  ∀ s : State, s.run ≠ .running → step s = .next s ∧ busTrace s = []

/-- Every step from every state has a next state: the spec's faults are next states (R88; log 6), so neither the
model's own fault nor a refusal is ever answered. -/
def Obligations.EveryStepHasANextState : Prop :=
  ∀ s : State, ∃ t, step s = .next t

/-! ## Halt and faults -/

/-- A HALT byte at `pc` halts, before any decoding: `pc` stays and no other state changes (R65). -/
def Obligations.HaltByteHalts : Prop :=
  ∀ s : State, s.run = .running → memRead s.mem s.pc = .ok 0x76 → step s = .next { s with run := .halted }

/-- The opcode fetch outside the window raises OutOfRange at `pc`: the record has no byte, `pc` and everything
else is unchanged (R64, R86, R88). The record's layout is the spec's decision D5 (log 3). -/
def Obligations.OpcodeFetchOutsideWindowFaults : Prop :=
  ∀ s : State, s.run = .running → ¬ InWindow s.pc →
    step s = .next { s with run := .faulted, fault := ⟨.outOfRange, s.pc, none⟩ }

/-- An illegal opcode raises UnknownInstruction with the opcode's address and byte recorded; nothing else changes
and no operand byte is fetched (R58, R87, R88). The record's layout is the spec's decision D5 (log 3). -/
def Obligations.UnknownOpcodeFaults : Prop :=
  ∀ (s : State) (op : Byte), s.run = .running → memRead s.mem s.pc = .ok op → illegalOpcode op = true →
    step s = .next { s with run := .faulted, fault := ⟨.unknownInstruction, s.pc, some op⟩ } ∧
    busTrace s = [.read s.pc (.ok op)]

/-- The first operand byte outside the window, for every instruction of two or three bytes: OutOfRange at `pc + 1`
with the opcode recorded, `pc` still at the opcode (R86, R90). That `pc` has not advanced is the spec's
decision D4 (log 2), the record's layout its decision D5 (log 3). -/
def Obligations.FirstOperandOutsideWindowFaults : Prop :=
  ∀ (s : State) (i : Instr), s.run = .running → 2 ≤ i.length → memRead s.mem s.pc = .ok i.form.opcode →
    ¬ InWindow (s.pc + 1) →
    step s = .next { s with run := .faulted, fault := ⟨.outOfRange, s.pc + 1, some i.form.opcode⟩ }

/-- The second operand byte outside the window, for every instruction of three bytes: OutOfRange at `pc + 2`, and
`pc` at the first operand byte; no register, `sp` or memory byte is written (R86, R90). The value of `pc` is
the spec's decision D4 (log 2); that a pair is not half written is its decision D16 (log 7), the
record's layout its decision D5 (log 3). -/
def Obligations.SecondOperandOutsideWindowFaults : Prop :=
  ∀ (s : State) (i : Instr), s.run = .running → i.length = 3 → memRead s.mem s.pc = .ok i.form.opcode →
    InWindow (s.pc + 1) → ¬ InWindow (s.pc + 2) →
    step s = .next
      { s with pc := s.pc + 1
               run := .faulted
               fault := ⟨.outOfRange, s.pc + 2, some i.form.opcode⟩ }

/-- A data access through H:L outside the window raises OutOfRange at `cat(H, L)`: `MOV r,M` and `MOV M,r` with
`pc` at the opcode, `MVI M` with `pc` at its operand byte; nothing else changes (R76, R77, R79, R86, R89). The
record's layout is the spec's decision D5 (log 3). -/
def Obligations.IndirectAccessOutsideWindowFaults : Prop :=
  ∀ (s : State) (r : Reg) (v : Byte), ¬ InWindow (cat s.regs.h s.regs.l) →
    exec (.movRM r) s = .next
      { s with run := .faulted
               fault := ⟨.outOfRange, cat s.regs.h s.regs.l, some (Instr.movRM r).form.opcode⟩ } ∧
    exec (.movMR r) s = .next
      { s with run := .faulted
               fault := ⟨.outOfRange, cat s.regs.h s.regs.l, some (Instr.movMR r).form.opcode⟩ } ∧
    exec (.mviM v) s = .next
      { s with pc := s.pc + 1
               run := .faulted
               fault := ⟨.outOfRange, cat s.regs.h s.regs.l, some 0x36⟩ }

/-- `LDA` and `STA` at an address outside the window raise OutOfRange at that address with `pc` at the second
operand byte; nothing else changes (R82, R83, R86, R89). The two opcodes recorded are the spec's decision D1
(log 4), the record's layout its decision D5 (log 3). -/
def Obligations.DirectAccessOutsideWindowFaults : Prop :=
  ∀ (s : State) (addr : Word), ¬ InWindow addr →
    exec (.lda addr) s = .next
      { s with pc := s.pc + 2
               run := .faulted
               fault := ⟨.outOfRange, addr, some 0x3A⟩ } ∧
    exec (.sta addr) s = .next
      { s with pc := s.pc + 2
               run := .faulted
               fault := ⟨.outOfRange, addr, some 0x32⟩ }

/-- Faults are precise: a step that ends in Faulted leaves every general register, `sp` and all of memory as they
were, and `pc` at most two bytes on (R70, R89). The values of `pc` are the spec's decision D4 (log 2), that a pair is not
half written its decision D16 (log 7). -/
def Obligations.FaultsArePrecise : Prop :=
  ∀ s t : State, s.run = .running → step s = .next t → t.run = .faulted →
    (∀ r, t.readReg r = s.readReg r) ∧ t.sp = s.sp ∧ (∀ a, memRead t.mem a = memRead s.mem a) ∧
    (t.pc = s.pc ∨ t.pc = s.pc + 1 ∨ t.pc = s.pc + 2)

/-! ## What each instruction does

Each statement says that the instruction completes, what it writes, and its frame: every other register, `sp`,
`run`, the fault record, and every byte of memory not stored to. -/

/-- `MOV r1,r2`, all 49 opcodes `01 ddd sss` (R75): `x[ddd] <- x[sss]` and `pc + 1`, from any state; every other
register and all other state is kept. -/
def Obligations.MovRegisterToRegister : Prop :=
  ∀ (dst src : Reg) (s : State),
    decode [0b01#2 ++ dst.code ++ src.code] = .instr (.movRR dst src) [] ∧
    ∃ t, exec (.movRR dst src) s = .next t ∧
      t.readReg dst = s.readReg src ∧ (∀ r, r ≠ dst → t.readReg r = s.readReg r) ∧
      t.pc = s.pc + 1 ∧ t.sp = s.sp ∧ t.run = s.run ∧ t.fault = s.fault ∧
      (∀ a, memRead t.mem a = memRead s.mem a)

/-- `MOV r,M`, 7 opcodes (R76): with `cat(H, L)` in the window, the byte read there goes to the register, also
where the register is H or L itself; `pc + 1`. -/
def Obligations.MovMemoryToRegister : Prop :=
  ∀ (dst : Reg) (s : State), InWindow (cat s.regs.h s.regs.l) →
    ∃ t, exec (.movRM dst) s = .next t ∧
      memRead s.mem (cat s.regs.h s.regs.l) = .ok (t.readReg dst) ∧
      (∀ r, r ≠ dst → t.readReg r = s.readReg r) ∧
      t.pc = s.pc + 1 ∧ t.sp = s.sp ∧ t.run = s.run ∧ t.fault = s.fault ∧
      (∀ a, memRead t.mem a = memRead s.mem a)

/-- `MOV M,r`, 7 opcodes (R77): with `cat(H, L)` in the window, the byte there becomes the register's value, also
where the register is H or L itself; no register and no other byte changes; `pc + 1`. Outside the window the
body faults with memory unchanged and `pc` at the opcode; the kind and address it records there are the spec's decision D5
(log 3). -/
def Obligations.MovRegisterToMemory : Prop :=
  ∀ (src : Reg) (s : State),
    decode [0b01#2 ++ 0b110#3 ++ src.code] = .instr (.movMR src) [] ∧
    (InWindow (cat s.regs.h s.regs.l) →
      ∃ t, exec (.movMR src) s = .next t ∧
        memRead t.mem (cat s.regs.h s.regs.l) = .ok (s.readReg src) ∧
        (∀ a, a ≠ cat s.regs.h s.regs.l → memRead t.mem a = memRead s.mem a) ∧
        (∀ r, t.readReg r = s.readReg r) ∧
        t.pc = s.pc + 1 ∧ t.sp = s.sp ∧ t.run = s.run ∧ t.fault = s.fault) ∧
    (¬ InWindow (cat s.regs.h s.regs.l) →
      ∃ t, exec (.movMR src) s = .next t ∧ t.run = .faulted ∧ t.fault.kind = .outOfRange ∧
        t.fault.addr = cat s.regs.h s.regs.l ∧ (∀ a, memRead t.mem a = memRead s.mem a) ∧
        (∀ r, t.readReg r = s.readReg r) ∧ t.pc = s.pc ∧ t.sp = s.sp)

/-- `MVI r,data8`, 7 opcodes (R78): the immediate, any value, goes to the register; `pc + 2`. -/
def Obligations.MviToRegister : Prop :=
  ∀ (dst : Reg) (v : Byte) (s : State),
    ∃ t, exec (.mviR dst v) s = .next t ∧
      t.readReg dst = v ∧ (∀ r, r ≠ dst → t.readReg r = s.readReg r) ∧
      t.pc = s.pc + 2 ∧ t.sp = s.sp ∧ t.run = s.run ∧ t.fault = s.fault ∧
      (∀ a, memRead t.mem a = memRead s.mem a)

/-- `MVI M,data8` (R79): with `cat(H, L)` in the window, the byte there becomes the immediate; no register and no
other byte changes; `pc + 2`. -/
def Obligations.MviToMemory : Prop :=
  ∀ (v : Byte) (s : State), InWindow (cat s.regs.h s.regs.l) →
    ∃ t, exec (.mviM v) s = .next t ∧
      memRead t.mem (cat s.regs.h s.regs.l) = .ok v ∧
      (∀ a, a ≠ cat s.regs.h s.regs.l → memRead t.mem a = memRead s.mem a) ∧
      (∀ r, t.readReg r = s.readReg r) ∧
      t.pc = s.pc + 2 ∧ t.sp = s.sp ∧ t.run = s.run ∧ t.fault = s.fault

/-- `LXI rp,data16`, 3 opcodes (R80): the high byte goes to the pair's first-named register, the low byte to its
second, every other register is kept; `pc + 3`. Every 16-bit value is `cat` of two bytes. Which code names which pair is
the spec's decision D12 (log 5) and no part of this statement. -/
def Obligations.LxiToPair : Prop :=
  ∀ (p : Pair) (hi lo : Byte) (s : State),
    ∃ t, exec (.lxiRp p (cat hi lo)) s = .next t ∧
      t.readReg p.highReg = hi ∧ t.readReg p.lowReg = lo ∧
      (∀ r, r ≠ p.highReg → r ≠ p.lowReg → t.readReg r = s.readReg r) ∧
      t.pc = s.pc + 3 ∧ t.sp = s.sp ∧ t.run = s.run ∧ t.fault = s.fault ∧
      (∀ a, memRead t.mem a = memRead s.mem a)

/-- `LXI SP,data16` (R81): `sp` becomes the operand, any value; no general register changes; `pc + 3`. -/
def Obligations.LxiToStackPointer : Prop :=
  ∀ (hi lo : Byte) (s : State),
    ∃ t, exec (.lxiSP (cat hi lo)) s = .next t ∧
      t.sp.toNat = hi.toNat * 256 + lo.toNat ∧ (∀ r, t.readReg r = s.readReg r) ∧
      t.pc = s.pc + 3 ∧ t.run = s.run ∧ t.fault = s.fault ∧
      (∀ a, memRead t.mem a = memRead s.mem a)

/-- `LDA addr16` (R82): with the address in the window, A becomes the byte read there; `pc + 3`. -/
def Obligations.LdaLoadsA : Prop :=
  ∀ (addr : Word) (s : State), InWindow addr →
    ∃ t, exec (.lda addr) s = .next t ∧
      memRead s.mem addr = .ok (t.readReg .a) ∧ (∀ r, r ≠ .a → t.readReg r = s.readReg r) ∧
      t.pc = s.pc + 3 ∧ t.sp = s.sp ∧ t.run = s.run ∧ t.fault = s.fault ∧
      (∀ a, memRead t.mem a = memRead s.mem a)

/-- `STA addr16` (R83): with the address in the window, the byte there becomes A; no register and no other byte
changes; `pc + 3`. -/
def Obligations.StaStoresA : Prop :=
  ∀ (addr : Word) (s : State), InWindow addr →
    ∃ t, exec (.sta addr) s = .next t ∧
      memRead t.mem addr = .ok (s.readReg .a) ∧
      (∀ a, a ≠ addr → memRead t.mem a = memRead s.mem a) ∧
      (∀ r, t.readReg r = s.readReg r) ∧
      t.pc = s.pc + 3 ∧ t.sp = s.sp ∧ t.run = s.run ∧ t.fault = s.fault

/-- `HALT` (R84), from any state: `run` becomes Halted; `pc` stays at the HALT byte and no register, `sp`, memory
byte or fault record changes. -/
def Obligations.HaltInstructionHalts : Prop :=
  decode [0x76] = .instr .halt [] ∧
  ∀ s : State, ∃ t, exec .halt s = .next t ∧ t.run = .halted ∧ t.pc = s.pc ∧ t.sp = s.sp ∧
    (∀ r, t.readReg r = s.readReg r) ∧ t.fault = s.fault ∧ (∀ a, memRead t.mem a = memRead s.mem a)

/-! ## Rules of the whole machine -/

/-- A completed instruction leaves `pc` at its opcode address plus its length (R69). -/
def Obligations.CompletedStepAdvancesByLength : Prop :=
  ∀ (s t : State) (i : Instr), s.run = .running → s.BytesAt (encode i) → step s = .next t →
    t.run = .running → t.pc = s.pc + BitVec.ofNat 16 i.length

/-- Control flows only forward: `pc` never moves back, and by at most 3 (R71, R74). -/
def Obligations.ProgramCounterOnlyMovesForward : Prop :=
  ∀ s t : State, s.Inv → step s = .next t → s.pc.toNat ≤ t.pc.toNat ∧ t.pc.toNat ≤ s.pc.toNat + 3

/-- The run state's transitions (R21): a step keeps Halted and Faulted; from Running it goes to Halted exactly on
a fetched HALT byte. The no-op of a stopped step is the spec's decision D7 (log 16). -/
def Obligations.RunStateTransitions : Prop :=
  ∀ s t : State, step s = .next t →
    (s.run = .halted → t.run = .halted) ∧ (s.run = .faulted → t.run = .faulted) ∧
    (s.run = .running → (t.run = .halted ↔ memRead s.mem s.pc = .ok 0x76))

/-- Only the instructions that R18 lists for a register write it: where a step changes a register, the bytes at
`pc` are an instruction that writes it. -/
def Obligations.OnlyListedInstructionsWriteARegister : Prop :=
  ∀ (s t : State) (r : Reg), step s = .next t → t.readReg r ≠ s.readReg r →
    ∃ i, s.BytesAt (encode i) ∧ r ∈ registersWritten i

/-- Only `LXI SP` writes `sp` (R23). -/
def Obligations.OnlyLxiSpWritesStackPointer : Prop :=
  ∀ s t : State, step s = .next t → t.sp ≠ s.sp → ∃ w, s.BytesAt (encode (.lxiSP w)) ∧ t.sp = w

/-- Only a completed store changes memory, and only its one byte: where a step changes what an address reads as, the
bytes at `pc` are an instruction whose store address it is (R43, R73). That a read changes nothing is the spec's decision D11
(log 19). -/
def Obligations.OnlyStoresChangeMemory : Prop :=
  ∀ (s t : State) (a : Word), step s = .next t → memRead t.mem a ≠ memRead s.mem a →
    ∃ i, s.BytesAt (encode i) ∧ storeAddress i s = some a ∧ InWindow a

/-- No instruction reads `sp` or the fault record (R23, R25): runs that differ only there take steps that differ
only there; a fault writes the same record in both, and no other step writes it. That a record is kept outside Faulted, and
its layout, are the spec's decision D5 (log 3). -/
def Obligations.StackPointerAndFaultRecordAreNotRead : Prop :=
  ∀ (s t : State) (w : Word) (f : FaultRecord), step s = .next t →
    ∃ u, step { s with sp := w, fault := f } = .next u ∧
      u.regs = t.regs ∧ u.pc = t.pc ∧ u.run = t.run ∧ u.mem = t.mem ∧
      (s.run = .running → t.run = .faulted → u.fault = t.fault) ∧
      (¬ (s.run = .running ∧ t.run = .faulted) → u.fault = f ∧ t.fault = s.fault)

/-- A step keeps the invariant, from every state that has it: memory keeps its canonical form (log 8),
`BASE <= pc <= BASE + SIZE` (R71), a halted `pc` names a HALT byte (R65), and a fault record is coherent with
the state it was raised in (R86, R87). The record's layout is the spec's decision D5 (log 3), `pc` at a failing operand
fetch its decision D4 (log 2). -/
def Obligations.StepKeepsInvariant : Prop :=
  ∀ s t : State, s.Inv → step s = .next t → t.Inv

/-- The invariant holds after reset, whatever the reset values of the registers and `sp` (R30, R31, R47), and so does
that of the session the host then has. -/
def Obligations.ResetHasInvariant : Prop :=
  (∀ (regs : RegFile) (sp : Word), (State.resetWith regs sp).Inv ∧ Session.Inv ⟨State.resetWith regs sp, false⟩) ∧
  Session.initial.Inv

/-! ## Reset, ports and the host -/

/-- Reset zero-fills the whole window, and only the window answers (R47, R38). -/
def Obligations.ResetZeroFillsWindow : Prop :=
  ∀ a : Word, (InWindow a → memRead State.reset.mem a = .ok 0x00) ∧
    (¬ InWindow a → memRead State.reset.mem a = .outOfRange)

/-- Reset, as the control port's command in any state (R100; decision D18, log 11): Running, `pc = BASE`, execution not yet
begun (R31, R99). The registers and `sp` are
`0x00` and `0x0000` by the spec's decision D2 (log 1), the fault record's values by its decision D6 (log 3),
and they show so on the observation port. -/
def Obligations.ResetState : Prop :=
  ∀ h : Session, ∃ t, hostMove h .reset = .next (⟨t, false⟩, .nothing) ∧ t.run = .running ∧ t.pc = 0x2000 ∧
    observe t = { a := 0, b := 0, c := 0, d := 0, e := 0, h := 0, l := 0, pc := 0x2000, sp := 0, run := 0,
                  faultKind := 0, faultAddr := 0, faultByte := none }

/-- The code table of the multiplexer (R14): the seven codes read the seven registers, and code `110` reads none, being
the memory operand M at address `cat(H, L)`. -/
def Obligations.RegisterCodesSelectAsTabled : Prop :=
  ∀ s : State,
    s.readPort 0b000 = some s.regs.b ∧ s.readPort 0b001 = some s.regs.c ∧ s.readPort 0b010 = some s.regs.d ∧
    s.readPort 0b011 = some s.regs.e ∧ s.readPort 0b100 = some s.regs.h ∧ s.readPort 0b101 = some s.regs.l ∧
    s.readPort 0b110 = none ∧ s.readPort 0b111 = some s.regs.a ∧
    s.sourceM = .memory (cat s.regs.h s.regs.l) ∧ s.destM = .memory (cat s.regs.h s.regs.l)

/-- The byte-combination rule (R53): `cat(hi, lo) = (hi << 8) | lo`, the low byte being the one fetched first, alike in
`LXI`, `LDA` and `STA`. The opcodes of `LDA` and `STA` are the encoder's. -/
def Obligations.OperandBytesCombineLowFirst : Prop :=
  ∀ hi lo : Byte, (cat hi lo).toNat = (hi.toNat <<< 8) ||| lo.toNat ∧
    (∀ p : Pair, (encode (.lxiRp p (cat hi lo))).drop 1 = [lo, hi]) ∧
    (encode (.lxiSP (cat hi lo))).drop 1 = [lo, hi] ∧
    (encode (.lda (cat hi lo))).drop 1 = [lo, hi] ∧ (encode (.sta (cat hi lo))).drop 1 = [lo, hi]

/-- The register file's ports (R14, R15, R16): for a code other than `110`, a write replaces that register's value and
changes no other register and nothing else; code `110` has no slot. -/
def Obligations.RegisterPortsWriteOneRegister : Prop :=
  ∀ (s : State) (code : BitVec 3) (v : Byte),
    (code ≠ 0b110 → ∃ t, s.writePort code v = some t ∧ t.readPort code = some v ∧
      (∀ other, other ≠ code → t.readPort other = s.readPort other) ∧
      t.pc = s.pc ∧ t.sp = s.sp ∧ t.run = s.run ∧ t.fault = s.fault ∧ t.mem = s.mem) ∧
    (s.writePort 0b110 v = none ∧ s.readPort 0b110 = none)

/-- The bus gate (R34): a read inside the window `[0x2000, 0x27FF]` answers the byte stored for the address, a read outside
answers `OutOfRange`. -/
def Obligations.BusReadAnswersOnlyInWindow : Prop :=
  ∀ (m : Memory) (addr : Word),
    (0x2000 ≤ addr.toNat ∧ addr.toNat ≤ 0x27FF → memRead m addr = .ok (m.byteAt addr.toNat)) ∧
    (¬ (0x2000 ≤ addr.toNat ∧ addr.toNat ≤ 0x27FF) → memRead m addr = .outOfRange)

/-- The bus gate (R35): a write inside the window is accepted and replaces exactly the addressed byte; outside it is
answered `OutOfRange`. -/
def Obligations.BusWriteReplacesOneByte : Prop :=
  ∀ (m : Memory) (addr : Word) (v : Byte),
    (0x2000 ≤ addr.toNat ∧ addr.toNat ≤ 0x27FF →
      ∃ m', memWrite m addr v = .ok m' ∧ memRead m' addr = .ok v ∧
        (∀ a, a ≠ addr → memRead m' a = memRead m a)) ∧
    (¬ (0x2000 ≤ addr.toNat ∧ addr.toNat ≤ 0x27FF) → memWrite m addr v = .outOfRange)

/-- A loader write where the host has that move (R103, `LoadOnlyBeforeExecution`): inside the window it changes that byte and nothing else; outside it is answered
`OutOfRange` and changes no state (the spec's decision D20, log 11). -/
def Obligations.LoaderWritesThroughTheGate : Prop :=
  ∀ (s : State) (addr : Word) (v : Byte),
    (InWindow addr → (s.load addr v).2 = .ok () ∧ memRead (s.load addr v).1.mem addr = .ok v ∧
      (∀ a, a ≠ addr → memRead (s.load addr v).1.mem a = memRead s.mem a) ∧
      { (s.load addr v).1 with mem := s.mem } = s) ∧
    (¬ InWindow addr → s.load addr v = (s, .outOfRange))

/-- `execute` is `step` repeated (R104): as many steps as the limit, a stopped block staying as it is. -/
def Obligations.ExecuteIsRepeatedStep : Prop :=
  ∀ (n : Nat) (s : State), execute (some n) s = core.run n s

/-- Every run ends: from any state, within `SIZE + 1` steps the block is Halted or Faulted, and `execute` without a
limit answers that end (R105). -/
def Obligations.EveryRunEndsWithinSizePlusOneSteps : Prop :=
  ∀ s : State, ∃ t, core.run (Config.size + 1) s = .next t ∧ t.run ≠ .running ∧ execute none s = .next t

/-- Every run ends in exactly one way, Halted or Faulted (R21, R91, R105). -/
def Obligations.EveryRunEndsOneWay : Prop :=
  ∀ s : State, (s.EndsHalted ∨ s.EndsFaulted) ∧ ¬ (s.EndsHalted ∧ s.EndsFaulted)

/-- An instruction loaded at `BASE` after reset is the first one that runs, whatever the registers' reset values
(R99, R101). -/
def Obligations.LoadedInstructionRunsFirst : Prop :=
  ∀ (regs : RegFile) (sp : Word) (i : Instr) (s : State),
    s = (State.resetWith regs sp).loadAll ((encode i).mapIdx fun k v => (Config.base + BitVec.ofNat 16 k, v)) →
    step s = exec i s

/-! ## Bus transactions -/

/-- The transactions of an instruction whose bytes stand at `pc`: one read for each of its bytes in rising order, then
its one data transaction if it has one (R41). -/
def Obligations.TransactionsAreAsTabled : Prop :=
  ∀ (s : State) (i : Instr), s.run = .running → s.BytesAt (encode i) →
    busTrace s =
      (encode i).mapIdx (fun k v => .read (s.pc + BitVec.ofNat 16 k) (.ok v)) ++ dataTransactions i s

/-- The transactions tell what happened: memory after a step is what the accepted writes made of it, and the step
raised OutOfRange exactly when the bus rejected the last transaction, at the address recorded; no transaction
before the last is rejected (R41, R43, R90). The kind and address recorded are the spec's decision D5 (log 3), that a read
changes nothing its decision D11 (log 19). -/
def Obligations.TransactionsTellMemoryAndFault : Prop :=
  ∀ s t : State, s.run = .running → step s = .next t →
    t.mem = (busTrace s).foldl (fun m x => x.applyTo m) s.mem ∧
    ∃ init last, busTrace s = init ++ [last] ∧ (∀ x ∈ init, x.rejected = false) ∧
      (last.rejected = true ↔ t.run = .faulted ∧ t.fault.kind = .outOfRange) ∧
      (last.rejected = true → t.fault.addr = last.addr)

/-! ## Several instructions -/

/-- `MVI src,k` then `MOV dst,src` leaves `dst = k` and every register but those two unchanged, for all `k` (the
property W6 of 95_test_vectors.md). -/
def Obligations.MoveRoundTrip : Prop :=
  ∀ (dst src : Reg) (k : Byte) (s : State), ∃ t u, exec (.mviR src k) s = .next t ∧
    exec (.movRR dst src) t = .next u ∧ u.readReg dst = k ∧ u.readReg src = k ∧
    (∀ r, r ≠ dst → r ≠ src → u.readReg r = s.readReg r)

/-- With H:L in the window, `MOV M,r` then `MOV r2,M` gives `r2` the value `r` had before the store, for any two
registers (the property W7 of 95_test_vectors.md). -/
def Obligations.StoreThenLoadThroughPointer : Prop :=
  ∀ (r r2 : Reg) (s : State), InWindow (cat s.regs.h s.regs.l) → ∃ t u, exec (.movMR r) s = .next t ∧
    exec (.movRM r2) t = .next u ∧ u.readReg r2 = s.readReg r

/-- `STA X`, then any `MVI A`, then `LDA X` restores A, for any X in the window (the property W8 of
95_test_vectors.md). -/
def Obligations.StoreThenLoadDirect : Prop :=
  ∀ (x : Word) (v : Byte) (s : State), InWindow x → ∃ t u w, exec (.sta x) s = .next t ∧
    exec (.mviA v) t = .next u ∧ exec (.lda x) u = .next w ∧ w.regs = s.regs

/-- Fetch is coherent with stores (R46, R107): a `STA` into the very next opcode is fetched by the next step, so
storing a HALT byte there halts the block at that address. That there is no prefetch is the spec's decision D11 (log 19); the
opcode of `STA` and with it the list of illegal bytes are its decision D1 (log 4), the record's layout its decision D5
(log 3). -/
def Obligations.StoreIntoNextOpcodeIsFetched : Prop :=
  ∀ s : State, s.run = .running → s.BytesAt (encode (.sta (s.pc + 3))) → InWindow (s.pc + 3) →
    ∃ t, step s = .next t ∧ t.pc = s.pc + 3 ∧ memRead t.mem t.pc = .ok s.regs.a ∧
      (s.regs.a = 0x76 → step t = .next { t with run := .halted }) ∧
      (illegalOpcode s.regs.a = true → ∃ u, step t = .next u ∧ u.run = .faulted ∧
        u.fault = ⟨.unknownInstruction, s.pc + 3, some s.regs.a⟩)

/-! ## The host's moves -/

/-- The host loads before execution only (R103). Before it, a load is answered with the gate's reply and leaves all but
the addressed byte; once a step or `execute` has been issued there is no such move until the next reset, in any run
state. That the host has none is the spec's decision D20 (log 11). -/
def Obligations.LoadOnlyBeforeExecution : Prop :=
  ∀ (s : State) (addr : Word) (v : Byte),
    hostMove ⟨s, true⟩ (.load addr v) = .refused .loadAfterExecutionBegan ∧
    ∃ t, hostMove ⟨s, false⟩ (.load addr v) =
        .next (⟨t, false⟩, .written (if InWindow addr then .ok () else .outOfRange)) ∧
      (InWindow addr → memRead t.mem addr = .ok v) ∧ (∀ a, a ≠ addr → memRead t.mem a = memRead s.mem a) ∧
      t.regs = s.regs ∧ t.pc = s.pc ∧ t.sp = s.sp ∧ t.run = s.run ∧ t.fault = s.fault

/-- The sequences of moves that are answered to their end are exactly those with no load after a step or `execute` since
the last reset, and any other is refused at such a load (R101, R103; the spec's decisions D15 and D20, log 11). -/
def Obligations.AnsweredMovesAreTheLegalOnes : Prop :=
  ∀ (h : Session) (moves : List HostMove),
    (movesLegal h.begun moves = true → ∃ t replies, hostMoves h moves = .next (t, replies) ∧
      replies.length = moves.length) ∧
    (movesLegal h.begun moves = false → hostMoves h moves = .refused .loadAfterExecutionBegan)

/-- Every answered move of the host keeps the invariant of the session: the block's own, and Running at `BASE` as long as
execution has not begun (R71, R99, R101, R103; the decisions behind the block's invariant are those of
`StepKeepsInvariant`, with D2, D18 and D20; logs 1, 11). -/
def Obligations.HostMovesKeepSessionInvariant : Prop :=
  ∀ (h k : Session) (move : HostMove) (reply : HostReply), h.Inv → hostMove h move = .next (k, reply) → k.Inv

/-- The boot order is open to the host in every state (R100, R101): reset, then any loads, then `execute`, each answered,
ends in what `boot` says. That `execute` does not reset is the spec's decision D15, that reset may come at any time its
decision D18 (log 11). -/
def Obligations.BootOrderIsAnswered : Prop :=
  ∀ (h : Session) (image : List (Word × Byte)) (limit : Option Nat), ∃ t replies,
    hostMoves h (.reset :: (image.map fun cell => .load cell.1 cell.2) ++ [.execute limit]) = .next (⟨t, true⟩, replies) ∧
    boot image limit = .next t
end

