-- ==== Sys2Proof/Laws/Encoding.lean ====
section
/-! SUPPORT. The laws of codes, byte halves and the pattern table (spec 10_state.md R14, 30_encoding.md R51
to R57). -/
namespace Sys2Proof

@[simp] theorem ofCode_code (r : Reg) : Reg.ofCode r.code = some r := by cases r <;> rfl

/-- Code `110` is the one code without a register (R14). -/
theorem ofCode_eq_none {c : BitVec 3} : Reg.ofCode c = none ↔ c = codeM := by
  revert c; decide

theorem code_of_ofCode {c : BitVec 3} {r : Reg} (h : Reg.ofCode c = some r) : r.code = c := by
  revert r c; decide +revert

@[simp] theorem pair_ofCode_code (p : Pair) : Pair.ofCode p.code = some p := by cases p <;> rfl

@[simp] theorem lowByte_cat (hi lo : Byte) : lowByte (cat hi lo) = lo := by
  ext i hi'
  simp [lowByte, cat, hi']
  omega

@[simp] theorem highByte_cat (hi lo : Byte) : highByte (cat hi lo) = hi := by
  ext i hi'
  have h1 : 8 + i < 16 := by omega
  simp [highByte, cat, h1, BitVec.getLsbD_eq_getElem hi']

@[simp] theorem cat_highByte_lowByte (w : Word) : cat (highByte w) (lowByte w) = w := by
  ext i hi'
  by_cases h : i < 8
  · simp [highByte, lowByte, cat, h, BitVec.getLsbD_eq_getElem hi']
  · have h1 : i - 8 < 8 := by omega
    have h2 : 8 + (i - 8) = i := by omega
    simp [highByte, lowByte, cat, h, h1, h2, BitVec.getLsbD_eq_getElem hi']

/-- `cat(hi, lo)` as a number (R53). -/
theorem cat_toNat (hi lo : Byte) : (cat hi lo).toNat = hi.toNat * 256 + lo.toNat := by
  have hh := hi.isLt
  have hl := lo.isLt
  rw [cat, BitVec.toNat_or, BitVec.toNat_shiftLeft, BitVec.toNat_setWidth, BitVec.toNat_setWidth,
    Nat.mod_eq_of_lt (a := hi.toNat) (by omega), Nat.mod_eq_of_lt (a := lo.toNat) (by omega),
    Nat.mod_eq_of_lt (by rw [Nat.shiftLeft_eq]; omega), ← Nat.shiftLeft_add_eq_or_of_lt hl, Nat.shiftLeft_eq]

/-! ## The ten forms -/

@[simp] theorem form_movRR (dst src : Reg) : (Instr.movRR dst src).form = .movRR dst.code src.code := by
  cases dst <;> cases src <;> rfl
@[simp] theorem form_movRM (dst : Reg) : (Instr.movRM dst).form = .movRM dst.code := by cases dst <;> rfl
@[simp] theorem form_movMR (src : Reg) : (Instr.movMR src).form = .movMR src.code := by cases src <;> rfl
@[simp] theorem form_mviR (dst : Reg) (v : Byte) : (Instr.mviR dst v).form = .mviR dst.code v := by
  cases dst <;> rfl
@[simp] theorem form_mviM (v : Byte) : (Instr.mviM v).form = .mviM v := rfl
@[simp] theorem form_lxiRp (p : Pair) (w : Word) : (Instr.lxiRp p w).form = .lxiRp p.code w := by cases p <;> rfl
@[simp] theorem form_lxiSP (w : Word) : (Instr.lxiSP w).form = .lxiSp w := rfl
@[simp] theorem form_lda (w : Word) : (Instr.lda w).form = .lda w := rfl
@[simp] theorem form_sta (w : Word) : (Instr.sta w).form = .sta w := rfl
@[simp] theorem form_halt : Instr.halt.form = .halt := rfl

/-- An instruction's fields name it (R60). -/
@[simp] theorem instr?_form (i : Instr) : i.form.instr? = some i := by cases i <;> rfl

/-- Case analysis over the ten forms of 00_scope.md R2: whatever holds of each form holds of each of the 78
instructions. -/
theorem instr_cases {P : Instr → Prop} (movRR : ∀ dst src, P (.movRR dst src)) (movRM : ∀ dst, P (.movRM dst))
    (movMR : ∀ src, P (.movMR src)) (mviR : ∀ dst v, P (.mviR dst v)) (mviM : ∀ v, P (.mviM v))
    (lxiRp : ∀ p w, P (.lxiRp p w)) (lxiSP : ∀ w, P (.lxiSP w)) (lda : ∀ w, P (.lda w))
    (sta : ∀ w, P (.sta w)) (halt : P .halt) (i : Instr) : P i := by
  have h := instr?_form i
  generalize i.form = f at h
  cases f with
  | movRR ddd sss =>
    simp only [Form.instr?] at h
    split at h
    · cases h; exact movRR _ _
    · cases h
  | movRM ddd => obtain ⟨r, -, rfl⟩ := Option.map_eq_some_iff.1 h; exact movRM r
  | movMR sss => obtain ⟨r, -, rfl⟩ := Option.map_eq_some_iff.1 h; exact movMR r
  | mviR ddd v => obtain ⟨r, -, rfl⟩ := Option.map_eq_some_iff.1 h; exact mviR r v
  | mviM v => cases h; exact mviM v
  | lxiRp pp w => obtain ⟨p, -, rfl⟩ := Option.map_eq_some_iff.1 h; exact lxiRp p w
  | lxiSp w => cases h; exact lxiSP w
  | lda w => cases h; exact lda w
  | sta w => cases h; exact sta w
  | halt => cases h; exact halt

/-! ## The opcode byte and the pattern table -/

theorem opcode_movRR_fields : ∀ op : Byte, op &&& 0xC0 = 0x40 → 0b01#2 ++ ddd op ++ sss op = op := by decide
theorem opcode_movRM_fields : ∀ op : Byte, op &&& 0xC7 = 0x46 → 0b01#2 ++ ddd op ++ codeM = op := by decide
theorem opcode_movMR_fields : ∀ op : Byte, op &&& 0xF8 = 0x70 → 0b01#2 ++ codeM ++ sss op = op := by decide
theorem opcode_mviR_fields : ∀ op : Byte, op &&& 0xC7 = 0x06 → 0b00#2 ++ ddd op ++ 0b110#3 = op := by decide
theorem opcode_lxiRp_fields : ∀ op : Byte, op &&& 0xCF = 0x01 → 0b00#2 ++ pp op ++ 0b0001#4 = op := by decide
theorem opcode_fixed : ∀ op : Byte, op &&& 0xFF = op := by decide

theorem pair_code_of_ofCode {c : BitVec 2} {p : Pair} (h : Pair.ofCode c = some p) : p.code = c := by
  revert p c; decide +revert

theorem ofCode_of_ne {c : BitVec 3} (h : c ≠ codeM) : ∃ r : Reg, Reg.ofCode c = some r ∧ r.code = c := by
  cases hr : Reg.ofCode c with
  | none => exact absurd (ofCode_eq_none.1 hr) h
  | some r => exact ⟨r, rfl, code_of_ofCode hr⟩

theorem pair_ofCode_of_ne {c : BitVec 2} (h : c ≠ codeSp) : ∃ p : Pair, Pair.ofCode c = some p ∧ p.code = c := by
  revert c; decide

/-- The operand bytes a format takes out of a low and a high byte (R49, R54). -/
def Format.takeOperands (f : Format) (low high : Byte) : List Byte := [low, high].take f.operandBytes

/-- What the decoder does with an opcode byte it selects a row for: with any operand bytes the row gives an
instruction, of the row's format, whose encoding is those very bytes (R55 to R57, R59). -/
theorem decodeOpcode_instr {op : Byte} {r : FormRow} (h : decodeOpcode op = some r) (low high : Byte) :
    ∃ i, r.instr? op low high = some i ∧ i.form.format = r.format ∧
      encode i = op :: r.format.takeOperands low high := by
  have hsel := List.find?_some h
  have hmem := List.mem_of_find?_eq_some h
  simp only [FormRow.selects, Bool.and_eq_true, beq_iff_eq] at hsel
  obtain ⟨hp, hw⟩ := hsel
  simp only [formRows, List.mem_cons, List.not_mem_nil, or_false] at hmem
  rcases hmem with rfl | rfl | rfl | rfl | rfl | rfl | rfl | rfl | rfl | rfl
  · exact ⟨.halt, rfl, rfl, by rw [opcode_fixed] at hp; rw [hp]; rfl⟩
  · simp only [Form.wellFormed, Bool.and_eq_true, bne_iff_ne] at hw
    obtain ⟨dst, hd, hd'⟩ := ofCode_of_ne hw.1
    obtain ⟨src, hs, hs'⟩ := ofCode_of_ne hw.2
    refine ⟨.movRR dst src, by simp [FormRow.instr?, Form.instr?, hd, hs], by simp [Form.format], ?_⟩
    simp [encode, Form.opcode, Form.operands, hd', hs', Format.takeOperands, Format.operandBytes,
      opcode_movRR_fields op hp]
  · simp only [Form.wellFormed, bne_iff_ne] at hw
    obtain ⟨dst, hd, hd'⟩ := ofCode_of_ne hw
    refine ⟨.movRM dst, by simp [FormRow.instr?, Form.instr?, hd], by simp [Form.format], ?_⟩
    simp [encode, Form.opcode, Form.operands, hd', Format.takeOperands, Format.operandBytes,
      opcode_movRM_fields op hp]
  · simp only [Form.wellFormed, bne_iff_ne] at hw
    obtain ⟨src, hs, hs'⟩ := ofCode_of_ne hw
    refine ⟨.movMR src, by simp [FormRow.instr?, Form.instr?, hs], by simp [Form.format], ?_⟩
    simp [encode, Form.opcode, Form.operands, hs', Format.takeOperands, Format.operandBytes,
      opcode_movMR_fields op hp]
  · simp only [Form.wellFormed, bne_iff_ne] at hw
    obtain ⟨dst, hd, hd'⟩ := ofCode_of_ne hw
    refine ⟨.mviR dst low, by simp [FormRow.instr?, Form.instr?, hd], by simp [Form.format], ?_⟩
    simp [encode, Form.opcode, Form.operands, hd', Format.takeOperands, Format.operandBytes,
      opcode_mviR_fields op hp]
  · exact ⟨.mviM low, rfl, rfl, by rw [opcode_fixed] at hp; rw [hp]; rfl⟩
  · simp only [Form.wellFormed, bne_iff_ne] at hw
    obtain ⟨p, hpr, hp'⟩ := pair_ofCode_of_ne hw
    refine ⟨.lxiRp p (cat high low), by simp [FormRow.instr?, Form.instr?, hpr], by simp [Form.format], ?_⟩
    simp [encode, Form.opcode, Form.operands, hp', Format.takeOperands, Format.operandBytes,
      opcode_lxiRp_fields op hp]
  · refine ⟨.lxiSP (cat high low), rfl, rfl, ?_⟩
    rw [opcode_fixed] at hp
    simp [encode, Form.operands, Format.takeOperands, Format.operandBytes, hp]
    rfl
  · refine ⟨.lda (cat high low), rfl, rfl, ?_⟩
    rw [opcode_fixed] at hp
    simp [encode, Form.opcode, Form.operands, Format.takeOperands, Format.operandBytes, hp]
  · refine ⟨.sta (cat high low), rfl, rfl, ?_⟩
    rw [opcode_fixed] at hp
    simp [encode, Form.opcode, Form.operands, Format.takeOperands, Format.operandBytes, hp]

/-- Every instruction's opcode byte selects a row of the instruction's format (R55). -/
theorem decodeOpcode_opcode (i : Instr) :
    ∃ r, decodeOpcode i.form.opcode = some r ∧ r.format = i.form.format := by
  have h : (decodeOpcode i.form.opcode).map FormRow.format = some i.form.format := by
    cases i <;> simp only [Instr.form, Form.opcode, Form.format] <;> rfl
  exact Option.map_eq_some_iff.1 h

end Sys2Proof
end

