-- ==== Sys2Proof/Laws/Memory.lean ====
section
/-! SUPPORT. The laws of memory and of the bus gate: read after write, the canonical form kept (spec
20_memory.md R33 to R35, R43). -/
namespace Sys2Proof.Machine

/-! ## The list -/

theorem byteAt_insert (m : Memory) (a b : Nat) (v : Byte) :
    Memory.byteAt (Memory.insert m a v) b = if b = a then v else Memory.byteAt m b := by
  induction m with
  | nil => simp [Memory.insert, Memory.byteAt, eq_comm]
  | cons cell m ih =>
    obtain ⟨k, w⟩ := cell
    simp only [Memory.insert]
    split
    · simp [Memory.byteAt, eq_comm]
    · by_cases hak : a = k
      · simp only [hak, if_true, Memory.byteAt, eq_comm (a := b)]
        split_ifs <;> rfl
      · rw [if_neg hak, Memory.byteAt, Memory.byteAt, ih]
        split_ifs with h1 h2 <;> first | rfl | exact absurd (h2.symm.trans h1.symm) hak

theorem byteAt_filter (m : Memory) (a b : Nat) :
    Memory.byteAt (m.filter (fun cell => cell.1 != a)) b = if b = a then 0 else Memory.byteAt m b := by
  induction m with
  | nil => simp [Memory.byteAt]
  | cons cell m ih =>
    obtain ⟨k, w⟩ := cell
    by_cases hk : k = a
    · rw [List.filter_cons_of_neg (by simpa using hk), ih, hk]
      by_cases hb : b = a
      · rw [if_pos hb, if_pos hb]
      · rw [if_neg hb, if_neg hb, Memory.byteAt, if_neg (Ne.symm hb)]
    · rw [List.filter_cons_of_pos (by simpa using hk), Memory.byteAt, Memory.byteAt, ih]
      split_ifs with h1 h2 <;> first | rfl | exact absurd (h1.trans h2) hk

/-- A write replaces exactly one byte (R43). -/
theorem byteAt_setByte (m : Memory) (a b : Nat) (v : Byte) :
    Memory.byteAt (m.setByte a v) b = if b = a then v else Memory.byteAt m b := by
  unfold Memory.setByte
  split
  · rw [byteAt_filter]; simp_all
  · exact byteAt_insert m a b v

/-! ## The canonical form -/

theorem wfFrom_cons (lo k : Nat) (v : Byte) (m : Memory) : Memory.wfFrom lo ((k, v) :: m) = true ↔
    lo ≤ k ∧ k < Config.base.toNat + Config.size ∧ v ≠ 0 ∧ Memory.wfFrom (k + 1) m = true := by
  simp [Memory.wfFrom, and_assoc]

theorem wfFrom_mono {lo lo' : Nat} {m : Memory} (h : Memory.wfFrom lo m = true) (hle : lo' ≤ lo) :
    Memory.wfFrom lo' m = true := by
  cases m with
  | nil => rfl
  | cons cell m =>
    obtain ⟨k, v⟩ := cell
    rw [wfFrom_cons] at h ⊢
    exact ⟨by omega, h.2⟩

theorem wfFrom_insert {m : Memory} {lo a : Nat} {v : Byte} (h : Memory.wfFrom lo m = true) (hlo : lo ≤ a)
    (ha : a < Config.base.toNat + Config.size) (hv : v ≠ 0) : Memory.wfFrom lo (Memory.insert m a v) = true := by
  induction m generalizing lo with
  | nil =>
    rw [Memory.insert, wfFrom_cons]
    exact ⟨hlo, ha, hv, rfl⟩
  | cons cell m ih =>
    obtain ⟨k, w⟩ := cell
    rw [wfFrom_cons] at h
    obtain ⟨h1, h2, h3, h4⟩ := h
    simp only [Memory.insert]
    split_ifs with hak hEq
    · rw [wfFrom_cons, wfFrom_cons]
      exact ⟨hlo, ha, hv, by omega, h2, h3, h4⟩
    · subst hEq
      rw [wfFrom_cons]
      exact ⟨hlo, ha, hv, h4⟩
    · rw [wfFrom_cons]
      exact ⟨h1, h2, h3, ih h4 (by omega)⟩

theorem wfFrom_filter {m : Memory} {lo a : Nat} (h : Memory.wfFrom lo m = true) :
    Memory.wfFrom lo (m.filter (fun cell => cell.1 != a)) = true := by
  induction m generalizing lo with
  | nil => rfl
  | cons cell m ih =>
    obtain ⟨k, w⟩ := cell
    rw [wfFrom_cons] at h
    obtain ⟨h1, h2, h3, h4⟩ := h
    by_cases hk : k = a
    · rw [List.filter_cons_of_neg (by simpa using hk)]
      exact wfFrom_mono (ih h4) (by omega)
    · rw [List.filter_cons_of_pos (by simpa using hk), wfFrom_cons]
      exact ⟨h1, h2, h3, ih h4⟩

/-! ## The bus -/

/-- The gate's check as numbers (R33). -/
theorem inWindow_iff {addr : Word} : InWindow addr ↔ 0x2000 ≤ addr.toNat ∧ addr.toNat ≤ 0x27FF := by
  simp [InWindow, inWindow, Config.base, Config.size]

theorem memRead_inWindow (m : Memory) {addr : Word} (h : InWindow addr) :
    memRead m addr = .ok (m.byteAt addr.toNat) := if_pos h

theorem memRead_outside (m : Memory) {addr : Word} (h : ¬ InWindow addr) : memRead m addr = .outOfRange := if_neg h

theorem memWrite_inWindow (m : Memory) {addr : Word} (v : Byte) (h : InWindow addr) :
    memWrite m addr v = .ok (m.setByte addr.toNat v) := if_pos h

theorem memWrite_outside (m : Memory) {addr : Word} (v : Byte) (h : ¬ InWindow addr) :
    memWrite m addr v = .outOfRange := if_neg h

/-- A read answers the stored byte exactly inside the window (R34). -/
theorem memRead_eq_ok {m : Memory} {addr : Word} {v : Byte} :
    memRead m addr = .ok v ↔ InWindow addr ∧ m.byteAt addr.toNat = v := by
  by_cases h : InWindow addr
  · simp [memRead_inWindow m h, InWindow, h]
  · simp [memRead_outside m h, InWindow, h]

theorem memRead_eq_outOfRange {m : Memory} {addr : Word} : memRead m addr = .outOfRange ↔ ¬ InWindow addr := by
  by_cases h : InWindow addr
  · simp [memRead_inWindow m h, InWindow, h]
  · simp [memRead_outside m h, InWindow, h]

/-- A write is accepted exactly inside the window (R35). -/
theorem memWrite_eq_ok {m m' : Memory} {addr : Word} {v : Byte} :
    memWrite m addr v = .ok m' ↔ InWindow addr ∧ m.setByte addr.toNat v = m' := by
  by_cases h : InWindow addr
  · simp [memWrite_inWindow m v h, InWindow, h]
  · simp [memWrite_outside m v h, InWindow, h]

theorem memWrite_eq_outOfRange {m : Memory} {addr : Word} {v : Byte} :
    memWrite m addr v = .outOfRange ↔ ¬ InWindow addr := by
  by_cases h : InWindow addr
  · simp [memWrite_inWindow m v h, InWindow, h]
  · simp [memWrite_outside m v h, InWindow, h]

/-- After an accepted write, its address reads as the byte written and every other address as before (R43). -/
theorem memRead_memWrite {m m' : Memory} {addr : Word} {v : Byte} (h : memWrite m addr v = .ok m') (b : Word) :
    memRead m' b = if b = addr then .ok v else memRead m b := by
  obtain ⟨hw, rfl⟩ := memWrite_eq_ok.1 h
  by_cases hb : b = addr
  · subst hb
    simp [memRead_inWindow _ hw, byteAt_setByte]
  · simp [memRead, byteAt_setByte, BitVec.toNat_inj, hb]

/-- An accepted write keeps the canonical form. -/
theorem wf_memWrite {m m' : Memory} {addr : Word} {v : Byte} (h : memWrite m addr v = .ok m') (hm : m.wf = true) :
    m'.wf = true := by
  obtain ⟨hw, rfl⟩ := memWrite_eq_ok.1 h
  obtain ⟨h1, h2⟩ := inWindow_iff.1 hw
  unfold Memory.setByte
  split
  · exact wfFrom_filter hm
  · exact wfFrom_insert hm h1 (by simp [Config.base, Config.size]; omega) ‹_›

/-- Consecutive bus writes keep the canonical form. -/
theorem wf_memWriteBytes {m : Memory} (vs : List Byte) (addr : Word) (hm : m.wf = true) :
    (memWriteBytes m addr vs).wf = true := by
  induction vs generalizing m addr with
  | nil => exact hm
  | cons v vs ih =>
    simp only [memWriteBytes]
    split
    · next m' h => exact ih _ (wf_memWrite h hm)
    · exact ih _ hm

end Sys2Proof.Machine
end

