-- ==== Sys2Proof/Laws/State.lean ====
section
/-! SUPPORT. The small lemmas of the state's updates: one per field per update, true by rfl. -/
namespace Sys2Proof.Machine

variable (s : State) (r q : Reg) (v : Byte) (w : Word) (p : Pair)

/-! ## `incPc` -/

@[simp] theorem incPc_pc : s.incPc.pc = s.pc + 1 := rfl
@[simp] theorem incPc_regs : s.incPc.regs = s.regs := rfl
@[simp] theorem incPc_sp : s.incPc.sp = s.sp := rfl
@[simp] theorem incPc_run : s.incPc.run = s.run := rfl
@[simp] theorem incPc_fault : s.incPc.fault = s.fault := rfl
@[simp] theorem incPc_mem : s.incPc.mem = s.mem := rfl
@[simp] theorem incPc_readReg : s.incPc.readReg r = s.readReg r := by cases r <;> rfl
@[simp] theorem incPc_hl : s.incPc.hl = s.hl := rfl

/-! ## `consume` -/

@[simp] theorem consume_regs (n : Nat) : (s.consume n).regs = s.regs := by
  induction n generalizing s with
  | zero => rfl
  | succ n ih => simp [State.consume, ih]
@[simp] theorem consume_sp (n : Nat) : (s.consume n).sp = s.sp := by
  induction n generalizing s with
  | zero => rfl
  | succ n ih => simp [State.consume, ih]
@[simp] theorem consume_run (n : Nat) : (s.consume n).run = s.run := by
  induction n generalizing s with
  | zero => rfl
  | succ n ih => simp [State.consume, ih]
@[simp] theorem consume_fault (n : Nat) : (s.consume n).fault = s.fault := by
  induction n generalizing s with
  | zero => rfl
  | succ n ih => simp [State.consume, ih]
@[simp] theorem consume_mem (n : Nat) : (s.consume n).mem = s.mem := by
  induction n generalizing s with
  | zero => rfl
  | succ n ih => simp [State.consume, ih]
@[simp] theorem consume_pc (n : Nat) : (s.consume n).pc = s.pc + BitVec.ofNat 16 n := by
  induction n generalizing s with
  | zero => simp [State.consume]
  | succ n ih =>
    simp only [State.consume, ih, incPc_pc, BitVec.add_assoc]
    rw [Nat.add_comm n 1, BitVec.ofNat_add]
    rfl

theorem readReg_of_regs {s t : State} (h : s.regs = t.regs) (r : Reg) : s.readReg r = t.readReg r := by
  cases r <;> simp [State.readReg, h]

theorem hl_of_regs {s t : State} (h : s.regs = t.regs) : s.hl = t.hl := by
  simp [State.hl, State.pair, readReg_of_regs h]

@[simp] theorem consume_readReg (n : Nat) : (s.consume n).readReg r = s.readReg r :=
  readReg_of_regs (consume_regs s n) r
@[simp] theorem consume_hl (n : Nat) : (s.consume n).hl = s.hl := hl_of_regs (consume_regs s n)

/-! ## The register file -/

@[simp] theorem writeReg_pc : (s.writeReg r v).pc = s.pc := rfl
@[simp] theorem writeReg_sp : (s.writeReg r v).sp = s.sp := rfl
@[simp] theorem writeReg_run : (s.writeReg r v).run = s.run := rfl
@[simp] theorem writeReg_fault : (s.writeReg r v).fault = s.fault := rfl
@[simp] theorem writeReg_mem : (s.writeReg r v).mem = s.mem := rfl

/-- A register reads as last written, every other register as before (R16). -/
theorem readReg_writeReg : (s.writeReg r v).readReg q = if q = r then v else s.readReg q := by
  cases r <;> cases q <;> rfl

@[simp] theorem writePair_pc : (s.writePair p w).pc = s.pc := rfl
@[simp] theorem writePair_sp : (s.writePair p w).sp = s.sp := rfl
@[simp] theorem writePair_run : (s.writePair p w).run = s.run := rfl
@[simp] theorem writePair_fault : (s.writePair p w).fault = s.fault := rfl
@[simp] theorem writePair_mem : (s.writePair p w).mem = s.mem := rfl

/-- Each half of a pair reads as its half of the value, every other register as before (R17, R80). -/
theorem readReg_writePair : (s.writePair p w).readReg q =
    if q = p.highReg then highByte w else if q = p.lowReg then lowByte w else s.readReg q := by
  cases p <;> cases q <;> rfl

/-- Two register files that read alike are equal (R13: there is nothing else in the file). -/
theorem regs_ext {s t : State} (h : ∀ r, s.readReg r = t.readReg r) : s.regs = t.regs := by
  have hb := h .b; have hc := h .c; have hd := h .d; have he := h .e
  have hh := h .h; have hl := h .l; have ha := h .a
  simp only [State.readReg] at hb hc hd he hh hl ha
  cases hs : s.regs; cases ht : t.regs
  simp_all

/-! ## `raise` -/

variable (k : FaultKind) (op : Option Byte)

@[simp] theorem raise_regs : (s.raise k w op).regs = s.regs := rfl
@[simp] theorem raise_pc : (s.raise k w op).pc = s.pc := rfl
@[simp] theorem raise_sp : (s.raise k w op).sp = s.sp := rfl
@[simp] theorem raise_mem : (s.raise k w op).mem = s.mem := rfl
@[simp] theorem raise_run : (s.raise k w op).run = .faulted := rfl
@[simp] theorem raise_fault : (s.raise k w op).fault = ⟨k, w, op⟩ := rfl

end Sys2Proof.Machine
end

