-- ==== Sys2Proof/Laws/Ops.lean ====
section
/-! SUPPORT. What each shared operation can do, said once: operand access, the byte move, the operand fetch,
the fetch of an instruction, the dispatch by form, and one step. Later proofs cite these and do not unfold. -/
namespace Sys2Proof.Machine

/-! ## Moving a byte -/

@[simp] theorem readSource_register (s : State) (r : Reg) : s.readSource (.register r) = .ok (s.readReg r) := rfl
@[simp] theorem readSource_memory (s : State) (ea : Word) : s.readSource (.memory ea) = memRead s.mem ea := rfl
@[simp] theorem readSource_immediate (s : State) (v : Byte) : s.readSource (.immediate v) = .ok v := rfl
@[simp] theorem writeDest_register (s : State) (v : Byte) (r : Reg) :
    s.writeDest v (.register r) = .ok (s.writeReg r v) := rfl

theorem moveByte_toRegister {op : Byte} {r : Reg} {src : Source} {s : State} {v : Byte}
    (h : s.readSource src = .ok v) : moveByte op (.register r) src s = .next (s.writeReg r v).incPc := by
  simp [moveByte, h]

theorem moveByte_toMemory {op : Byte} {ea : Word} {src : Source} {s : State} {v : Byte} {m : Memory}
    (h : s.readSource src = .ok v) (hw : memWrite s.mem ea v = .ok m) :
    moveByte op (.memory ea) src s = .next { s with mem := m }.incPc := by
  simp [moveByte, h, State.writeDest, hw]

theorem moveByte_readFault {op : Byte} {dst : Dest} {ea : Word} {s : State} (h : ¬ InWindow ea) :
    moveByte op dst (.memory ea) s = .next (s.raiseOutOfRange ea (some op)) := by
  simp [moveByte, memRead_outside s.mem h, State.raiseDataFault, Source.address]

theorem moveByte_writeFault {op : Byte} {ea : Word} {src : Source} {s : State} {v : Byte}
    (h : s.readSource src = .ok v) (hw : ¬ InWindow ea) :
    moveByte op (.memory ea) src s = .next (s.raiseOutOfRange ea (some op)) := by
  simp [moveByte, h, State.writeDest, memWrite_outside s.mem v hw, State.raiseDataFault, Dest.address]

/-! ## Fetching -/

theorem fetchNext_inWindow {op : Byte} {s : State} {v : Byte} (h : memRead s.mem (s.pc + 1) = .ok v) :
    fetchNext op s = .ok v s.incPc := by
  unfold fetchNext
  rw [h]

theorem fetchNext_outside {op : Byte} {s : State} (h : ¬ InWindow (s.pc + 1)) :
    fetchNext op s = .raised (s.raiseOutOfRange (s.pc + 1) (some op)) := by
  unfold fetchNext
  rw [memRead_outside s.mem h]

/-- What one operand fetch can do (R67). -/
theorem fetchNext_cases (op : Byte) (s : State) :
    (∃ v, memRead s.mem (s.pc + 1) = .ok v ∧ fetchNext op s = .ok v s.incPc) ∨
    (¬ InWindow (s.pc + 1) ∧ fetchNext op s = .raised (s.raiseOutOfRange (s.pc + 1) (some op))) := by
  by_cases h : InWindow (s.pc + 1)
  · exact .inl ⟨_, memRead_inWindow s.mem h, fetchNext_inWindow (memRead_inWindow s.mem h)⟩
  · exact .inr ⟨h, fetchNext_outside h⟩

/-- Operand bytes that were fetched leave only `pc` advanced (R67). -/
theorem fetchOperands_ok {op : Byte} {n : Nat} {s t : State} {b : Byte × Byte} (hn : n ≤ 2)
    (h : fetchOperands op n s = .ok b t) : t = s.consume n := by
  match n, hn with
  | 0, _ => simp [fetchOperands] at h; exact h.2.symm
  | 1, _ =>
    rcases fetchNext_cases op s with ⟨v, -, e⟩ | ⟨-, e⟩ <;> simp [fetchOperands, e] at h
    exact h.2.symm
  | 2, _ =>
    rcases fetchNext_cases op s with ⟨v, -, e⟩ | ⟨-, e⟩ <;> simp [fetchOperands, e] at h
    rcases fetchNext_cases op s.incPc with ⟨v', -, e'⟩ | ⟨-, e'⟩ <;> simp [e'] at h
    exact h.2.symm

/-- An operand fetch that raises: OutOfRange at the first operand byte with `pc` at the opcode, or at the second
with `pc` at the first operand byte (R67, R89). -/
theorem fetchOperands_raised {op : Byte} {n : Nat} {s t : State} (hn : n ≤ 2)
    (h : fetchOperands op n s = .raised t) :
    (1 ≤ n ∧ ¬ InWindow (s.pc + 1) ∧ t = s.raiseOutOfRange (s.pc + 1) (some op)) ∨
    (n = 2 ∧ InWindow (s.pc + 1) ∧ ¬ InWindow (s.pc + 1 + 1) ∧
      t = s.incPc.raiseOutOfRange (s.pc + 1 + 1) (some op)) := by
  match n, hn with
  | 0, _ => simp [fetchOperands] at h
  | 1, _ =>
    rcases fetchNext_cases op s with ⟨v, -, e⟩ | ⟨hw, e⟩ <;> simp [fetchOperands, e] at h
    exact .inl ⟨le_refl _, hw, h.symm⟩
  | 2, _ =>
    rcases fetchNext_cases op s with ⟨v, hv, e⟩ | ⟨hw, e⟩ <;> simp [fetchOperands, e] at h
    · rcases fetchNext_cases op s.incPc with ⟨v', -, e'⟩ | ⟨hw', e'⟩ <;> simp [e'] at h
      exact .inr ⟨rfl, (memRead_eq_ok.1 hv).1, hw', h.symm⟩
    · exact .inl ⟨by omega, hw, h.symm⟩

theorem operandBytes_le (f : Format) : f.operandBytes ≤ 2 := by cases f <;> decide

/-! ## Dispatch by form -/

variable (dst src : Reg) (p : Pair) (v : Byte) (w : Word) (s : State)

theorem exec_movRR : exec (.movRR dst src) s = movRR dst src s := by cases dst <;> cases src <;> rfl
theorem exec_movRM : exec (.movRM dst) s = movRM dst s := by cases dst <;> rfl
theorem exec_movMR : exec (.movMR src) s = movMR src s := by cases src <;> rfl
theorem exec_mviR : exec (.mviR dst v) s = mviR dst v s := by cases dst <;> rfl
theorem exec_mviM : exec (.mviM v) s = mviM v s := rfl
theorem exec_lxiRp : exec (.lxiRp p w) s = lxiRp p w s := by cases p <;> rfl
theorem exec_lxiSP : exec (.lxiSP w) s = lxiSp w s := rfl
theorem exec_lda : exec (.lda w) s = execLda w s := rfl
theorem exec_sta : exec (.sta w) s = execSta w s := rfl
theorem exec_halt : exec .halt s = execHalt s := rfl

/-! ## Bodies -/

/-- The opcode byte of an instruction (R49). -/
theorem encode_eq (i : Instr) : encode i = i.form.opcode :: i.form.operands := rfl

/-- What a body that moves a byte can do: complete, or raise OutOfRange at an address outside the window with
everything but the record and `run` kept (R70, R88). -/
theorem moveByte_cases (op : Byte) (dst : Dest) (src : Source) (s : State) :
    (∃ v t, s.readSource src = .ok v ∧ s.writeDest v dst = .ok t ∧ moveByte op dst src s = .next t.incPc) ∨
    (∃ ea, ¬ InWindow ea ∧ moveByte op dst src s = .next (s.raiseOutOfRange ea (some op))) := by
  cases src with
  | memory ea =>
    by_cases h : InWindow ea
    · cases dst with
      | register r =>
        exact .inl ⟨_, _, memRead_inWindow s.mem h, rfl, moveByte_toRegister (memRead_inWindow s.mem h)⟩
      | memory da =>
        by_cases hd : InWindow da
        · refine .inl ⟨_, _, memRead_inWindow s.mem h, ?_,
            moveByte_toMemory (memRead_inWindow s.mem h) (memWrite_inWindow s.mem _ hd)⟩
          simp [State.writeDest, memWrite_inWindow s.mem _ hd]
        · exact .inr ⟨da, hd, moveByte_writeFault (memRead_inWindow s.mem h) hd⟩
    · exact .inr ⟨ea, h, moveByte_readFault h⟩
  | register r =>
    cases dst with
    | register q => exact .inl ⟨_, _, rfl, rfl, rfl⟩
    | memory da =>
      by_cases hd : InWindow da
      · refine .inl ⟨_, _, rfl, ?_, moveByte_toMemory rfl (memWrite_inWindow s.mem _ hd)⟩
        simp [State.writeDest, memWrite_inWindow s.mem _ hd]
      · exact .inr ⟨da, hd, moveByte_writeFault rfl hd⟩
  | immediate x =>
    cases dst with
    | register q => exact .inl ⟨_, _, rfl, rfl, rfl⟩
    | memory da =>
      by_cases hd : InWindow da
      · refine .inl ⟨_, _, rfl, ?_, moveByte_toMemory rfl (memWrite_inWindow s.mem _ hd)⟩
        simp [State.writeDest, memWrite_inWindow s.mem _ hd]
      · exact .inr ⟨da, hd, moveByte_writeFault rfl hd⟩

end Sys2Proof.Machine
end

