-- ==== Sys2Proof/Laws/PerInstr.lean ====
section
/-! SUPPORT. Per-instruction law: every instruction's encoding fields are well formed, name that instruction
and no other, and give an encoding of the format's length (spec 30_encoding.md R55, R57, R60). -/
namespace Sys2Proof.Laws.FormFaithful

/-- The instruction's fields pass R55's extra conditions, read back as the instruction itself, and encode to
as many bytes as its format has (R57). -/
def Statement (i : Instr) : Prop :=
  i.form.wellFormed = true ∧ i.form.instr? = some i ∧ (encode i).length = i.form.format.length

theorem lxiB (data16 : Word) : Statement (.lxiB data16) := ⟨rfl, rfl, rfl⟩
theorem mviB (data8 : Byte) : Statement (.mviB data8) := ⟨rfl, rfl, rfl⟩
theorem mviC (data8 : Byte) : Statement (.mviC data8) := ⟨rfl, rfl, rfl⟩
theorem lxiD (data16 : Word) : Statement (.lxiD data16) := ⟨rfl, rfl, rfl⟩
theorem mviD (data8 : Byte) : Statement (.mviD data8) := ⟨rfl, rfl, rfl⟩
theorem mviE (data8 : Byte) : Statement (.mviE data8) := ⟨rfl, rfl, rfl⟩
theorem lxiH (data16 : Word) : Statement (.lxiH data16) := ⟨rfl, rfl, rfl⟩
theorem mviH (data8 : Byte) : Statement (.mviH data8) := ⟨rfl, rfl, rfl⟩
theorem mviL (data8 : Byte) : Statement (.mviL data8) := ⟨rfl, rfl, rfl⟩
theorem lxiSP (data16 : Word) : Statement (.lxiSP data16) := ⟨rfl, rfl, rfl⟩
theorem sta (addr16 : Word) : Statement (.sta addr16) := ⟨rfl, rfl, rfl⟩
theorem mviM (data8 : Byte) : Statement (.mviM data8) := ⟨rfl, rfl, rfl⟩
theorem lda (addr16 : Word) : Statement (.lda addr16) := ⟨rfl, rfl, rfl⟩
theorem mviA (data8 : Byte) : Statement (.mviA data8) := ⟨rfl, rfl, rfl⟩
theorem movBB : Statement .movBB := ⟨rfl, rfl, rfl⟩
theorem movBC : Statement .movBC := ⟨rfl, rfl, rfl⟩
theorem movBD : Statement .movBD := ⟨rfl, rfl, rfl⟩
theorem movBE : Statement .movBE := ⟨rfl, rfl, rfl⟩
theorem movBH : Statement .movBH := ⟨rfl, rfl, rfl⟩
theorem movBL : Statement .movBL := ⟨rfl, rfl, rfl⟩
theorem movBM : Statement .movBM := ⟨rfl, rfl, rfl⟩
theorem movBA : Statement .movBA := ⟨rfl, rfl, rfl⟩
theorem movCB : Statement .movCB := ⟨rfl, rfl, rfl⟩
theorem movCC : Statement .movCC := ⟨rfl, rfl, rfl⟩
theorem movCD : Statement .movCD := ⟨rfl, rfl, rfl⟩
theorem movCE : Statement .movCE := ⟨rfl, rfl, rfl⟩
theorem movCH : Statement .movCH := ⟨rfl, rfl, rfl⟩
theorem movCL : Statement .movCL := ⟨rfl, rfl, rfl⟩
theorem movCM : Statement .movCM := ⟨rfl, rfl, rfl⟩
theorem movCA : Statement .movCA := ⟨rfl, rfl, rfl⟩
theorem movDB : Statement .movDB := ⟨rfl, rfl, rfl⟩
theorem movDC : Statement .movDC := ⟨rfl, rfl, rfl⟩
theorem movDD : Statement .movDD := ⟨rfl, rfl, rfl⟩
theorem movDE : Statement .movDE := ⟨rfl, rfl, rfl⟩
theorem movDH : Statement .movDH := ⟨rfl, rfl, rfl⟩
theorem movDL : Statement .movDL := ⟨rfl, rfl, rfl⟩
theorem movDM : Statement .movDM := ⟨rfl, rfl, rfl⟩
theorem movDA : Statement .movDA := ⟨rfl, rfl, rfl⟩
theorem movEB : Statement .movEB := ⟨rfl, rfl, rfl⟩
theorem movEC : Statement .movEC := ⟨rfl, rfl, rfl⟩
theorem movED : Statement .movED := ⟨rfl, rfl, rfl⟩
theorem movEE : Statement .movEE := ⟨rfl, rfl, rfl⟩
theorem movEH : Statement .movEH := ⟨rfl, rfl, rfl⟩
theorem movEL : Statement .movEL := ⟨rfl, rfl, rfl⟩
theorem movEM : Statement .movEM := ⟨rfl, rfl, rfl⟩
theorem movEA : Statement .movEA := ⟨rfl, rfl, rfl⟩
theorem movHB : Statement .movHB := ⟨rfl, rfl, rfl⟩
theorem movHC : Statement .movHC := ⟨rfl, rfl, rfl⟩
theorem movHD : Statement .movHD := ⟨rfl, rfl, rfl⟩
theorem movHE : Statement .movHE := ⟨rfl, rfl, rfl⟩
theorem movHH : Statement .movHH := ⟨rfl, rfl, rfl⟩
theorem movHL : Statement .movHL := ⟨rfl, rfl, rfl⟩
theorem movHM : Statement .movHM := ⟨rfl, rfl, rfl⟩
theorem movHA : Statement .movHA := ⟨rfl, rfl, rfl⟩
theorem movLB : Statement .movLB := ⟨rfl, rfl, rfl⟩
theorem movLC : Statement .movLC := ⟨rfl, rfl, rfl⟩
theorem movLD : Statement .movLD := ⟨rfl, rfl, rfl⟩
theorem movLE : Statement .movLE := ⟨rfl, rfl, rfl⟩
theorem movLH : Statement .movLH := ⟨rfl, rfl, rfl⟩
theorem movLL : Statement .movLL := ⟨rfl, rfl, rfl⟩
theorem movLM : Statement .movLM := ⟨rfl, rfl, rfl⟩
theorem movLA : Statement .movLA := ⟨rfl, rfl, rfl⟩
theorem movMB : Statement .movMB := ⟨rfl, rfl, rfl⟩
theorem movMC : Statement .movMC := ⟨rfl, rfl, rfl⟩
theorem movMD : Statement .movMD := ⟨rfl, rfl, rfl⟩
theorem movME : Statement .movME := ⟨rfl, rfl, rfl⟩
theorem movMH : Statement .movMH := ⟨rfl, rfl, rfl⟩
theorem movML : Statement .movML := ⟨rfl, rfl, rfl⟩
theorem halt : Statement .halt := ⟨rfl, rfl, rfl⟩
theorem movMA : Statement .movMA := ⟨rfl, rfl, rfl⟩
theorem movAB : Statement .movAB := ⟨rfl, rfl, rfl⟩
theorem movAC : Statement .movAC := ⟨rfl, rfl, rfl⟩
theorem movAD : Statement .movAD := ⟨rfl, rfl, rfl⟩
theorem movAE : Statement .movAE := ⟨rfl, rfl, rfl⟩
theorem movAH : Statement .movAH := ⟨rfl, rfl, rfl⟩
theorem movAL : Statement .movAL := ⟨rfl, rfl, rfl⟩
theorem movAM : Statement .movAM := ⟨rfl, rfl, rfl⟩
theorem movAA : Statement .movAA := ⟨rfl, rfl, rfl⟩

end Sys2Proof.Laws.FormFaithful
end

