-- ==== Sys2Proof/Laws/Ports.lean ====
section
/-! SUPPORT. What the host's operations can do, said once (spec 70_reset_and_hazards.md R99 to R104): a loader write,
`execute`, and one move. -/
namespace Sys2Proof.Machine

/-! ## A loader write -/

variable (s : State) (addr : Word) (v : Byte)

@[simp] theorem load_regs : (s.load addr v).1.regs = s.regs := by unfold State.load; split <;> rfl
@[simp] theorem load_pc : (s.load addr v).1.pc = s.pc := by unfold State.load; split <;> rfl
@[simp] theorem load_sp : (s.load addr v).1.sp = s.sp := by unfold State.load; split <;> rfl
@[simp] theorem load_run : (s.load addr v).1.run = s.run := by unfold State.load; split <;> rfl
@[simp] theorem load_fault : (s.load addr v).1.fault = s.fault := by unfold State.load; split <;> rfl

variable {s addr v}

/-- A loader write is accepted inside the window and changes nothing outside it. -/
theorem load_cases : (InWindow addr ∧ ∃ m, memWrite s.mem addr v = .ok m ∧ s.load addr v = ({ s with mem := m }, .ok ())) ∨
    (¬ InWindow addr ∧ s.load addr v = (s, .outOfRange)) := by
  by_cases h : InWindow addr
  · exact .inl ⟨h, _, memWrite_inWindow _ _ h, by simp [State.load, memWrite_inWindow _ _ h]⟩
  · exact .inr ⟨h, by simp [State.load, memWrite_outside _ _ h]⟩

theorem load_wf (h : s.mem.wf = true) : (s.load addr v).1.mem.wf = true := by
  rcases load_cases (s := s) (addr := addr) (v := v) with ⟨_, m, hm, e⟩ | ⟨_, e⟩ <;> rw [e]
  · exact wf_memWrite hm h
  · exact h

/-! ## `execute` -/

/-- What every step keeps, `execute` keeps (R104). -/
theorem executeUpTo_keeps {P : State → Prop} (hstep : ∀ s t, P s → step s = .next t → P t) {n : Nat} {s t : State}
    (hs : P s) (h : executeUpTo n s = .next t) : P t := by
  induction n generalizing s with
  | zero => cases h; exact hs
  | succ n ih =>
    unfold executeUpTo at h
    cases hr : s.run <;> simp only [hr] at h
    · cases hq : step s <;> simp only [hq] at h
      · exact ih (hstep s _ hs hq) h
      · cases h
      · cases h
    · cases h; exact hs
    · cases h; exact hs

/-! ## One move -/

/-- What an answered move can do (the table of R103): a reset, a load before execution, a run of the block, or
nothing. -/
theorem hostMove_cases {h k : Session} {move : HostMove} {reply : HostReply} (e : hostMove h move = .next (k, reply)) :
    (move = .reset ∧ k = .initial ∧ reply = .nothing) ∨
    (∃ addr v, move = .load addr v ∧ h.begun = false ∧ k = ⟨(h.block.load addr v).1, false⟩ ∧
      reply = .written (h.block.load addr v).2) ∨
    (move = .step ∧ ∃ t, step h.block = .next t ∧ k = ⟨t, true⟩ ∧ reply = .nothing) ∨
    (∃ limit, move = .execute limit ∧ ∃ t, execute limit h.block = .next t ∧ k = ⟨t, true⟩ ∧ reply = .nothing) ∨
    (move = .observe ∧ k = h ∧ reply = .observed (observe h.block)) := by
  cases move with
  | reset => cases e; exact .inl ⟨rfl, rfl, rfl⟩
  | load addr v =>
    unfold hostMove at e
    cases hb : h.begun <;> simp only [hb] at e
    · cases e; exact .inr (.inl ⟨addr, v, rfl, rfl, rfl, rfl⟩)
    · cases e
  | step =>
    unfold hostMove at e
    cases hq : step h.block <;> simp only [hq, Session.ran] at e <;> cases e
    exact .inr (.inr (.inl ⟨rfl, _, rfl, rfl, rfl⟩))
  | execute limit =>
    unfold hostMove at e
    cases hq : execute limit h.block <;> simp only [hq, Session.ran] at e <;> cases e
    exact .inr (.inr (.inr (.inl ⟨limit, rfl, _, hq, rfl, rfl⟩)))
  | observe => cases e; exact .inr (.inr (.inr (.inr ⟨rfl, rfl, rfl⟩)))

end Sys2Proof.Machine
end

