-- ==== Sys2Proof/Laws/Step.lean ====
section
/-! SUPPORT. What the fetch of an instruction and one step can do, said once (spec 40_cycle.md R63 to R67,
60_exceptions.md R90), and that a body always has a next state. -/
namespace Sys2Proof.Machine

/-! ## The bytes at `pc` -/

theorem bytesAt_nil (s : State) : s.BytesAt [] := fun _ h => absurd h (Nat.not_lt_zero _)

theorem add_ofNat_succ (a : Word) (k : Nat) : a + BitVec.ofNat 16 (k + 1) = a + 1 + BitVec.ofNat 16 k := by
  rw [BitVec.add_assoc, Nat.add_comm k 1, BitVec.ofNat_add]
  rfl

theorem bytesAt_cons (s : State) (v : Byte) (bs : List Byte) :
    s.BytesAt (v :: bs) ↔ memRead s.mem s.pc = .ok v ∧ s.incPc.BytesAt bs := by
  constructor
  · intro h
    refine ⟨by simpa using h 0 (Nat.zero_lt_succ _), fun k hk => ?_⟩
    have := h (k + 1) (Nat.succ_lt_succ hk)
    rwa [add_ofNat_succ] at this
  · rintro ⟨h0, h⟩ k hk
    cases k with
    | zero => simpa using h0
    | succ k =>
      rw [add_ofNat_succ]
      exact h k (Nat.lt_of_succ_lt_succ hk)

/-- Operand bytes that were fetched are the bytes after `pc` (R54, R67). -/
theorem fetchOperands_bytes {op : Byte} {f : Format} {s t : State} {low high : Byte}
    (h : fetchOperands op f.operandBytes s = .ok (low, high) t) :
    s.incPc.BytesAt (f.takeOperands low high) := by
  have one (h : fetchOperands op 1 s = .ok (low, high) t) : s.incPc.BytesAt [low] := by
    rcases fetchNext_cases op s with ⟨v, hv, e⟩ | ⟨-, e⟩ <;> simp [fetchOperands, e] at h
    obtain ⟨⟨rfl, -⟩, -⟩ := h
    exact (bytesAt_cons _ _ _).2 ⟨hv, bytesAt_nil _⟩
  have two (h : fetchOperands op 2 s = .ok (low, high) t) : s.incPc.BytesAt [low, high] := by
    rcases fetchNext_cases op s with ⟨v, hv, e⟩ | ⟨-, e⟩ <;> simp [fetchOperands, e] at h
    rcases fetchNext_cases op s.incPc with ⟨v', hv', e'⟩ | ⟨-, e'⟩ <;> simp [e'] at h
    obtain ⟨⟨rfl, rfl⟩, -⟩ := h
    exact (bytesAt_cons _ _ _).2 ⟨hv, (bytesAt_cons _ _ _).2 ⟨hv', bytesAt_nil _⟩⟩
  cases f
  · exact bytesAt_nil _
  · exact one h
  · exact two h
  · exact two h
  · exact bytesAt_nil _

/-! ## The fetch of one instruction -/

/-- What the fetch can do, in the order of R90: the opcode fetch outside the window, an unknown opcode, an operand
byte outside the window, or the instruction whose encoding stands at `pc`. -/
theorem fetchInstr_cases (s : State) :
    (¬ InWindow s.pc ∧ fetchInstr s = .raised (s.raiseOutOfRange s.pc none)) ∨
    (∃ op, memRead s.mem s.pc = .ok op ∧ decodeOpcode op = none ∧
      fetchInstr s = .raised (s.raiseUnknownInstruction op)) ∨
    (∃ op r t, memRead s.mem s.pc = .ok op ∧ decodeOpcode op = some r ∧
      fetchOperands op r.format.operandBytes s = .raised t ∧ fetchInstr s = .raised t) ∨
    (∃ i, s.BytesAt (encode i) ∧ fetchInstr s = .ok i (s.consume i.form.format.operandBytes)) := by
  by_cases hw : InWindow s.pc
  · have hop := memRead_inWindow s.mem hw
    generalize s.mem.byteAt s.pc.toNat = op at hop
    cases hr : decodeOpcode op with
    | none => exact .inr (.inl ⟨op, hop, hr, by simp [fetchInstr, fetchOpcode, hop, hr]⟩)
    | some r =>
      cases hf : fetchOperands op r.format.operandBytes s with
      | raised t =>
        exact .inr (.inr (.inl ⟨op, r, t, hop, hr, hf, by simp [fetchInstr, fetchOpcode, hop, hr, hf]⟩))
      | ok b t =>
        obtain ⟨low, high⟩ := b
        obtain ⟨i, hi, hfmt, henc⟩ := decodeOpcode_instr hr low high
        refine .inr (.inr (.inr ⟨i, ?_, ?_⟩))
        · rw [henc]
          exact (bytesAt_cons _ _ _).2 ⟨hop, fetchOperands_bytes hf⟩
        · rw [hfmt, ← fetchOperands_ok (operandBytes_le _) hf]
          simp [fetchInstr, fetchOpcode, hop, hr, hf, hi]
  · exact .inl ⟨hw, by simp [fetchInstr, fetchOpcode, memRead_outside s.mem hw]⟩

/-! ## One step -/

theorem step_stopped {s : State} (h : s.run ≠ .running) : step s = .next s := by
  unfold step
  cases hr : s.run <;> simp_all

/-- What a step in Running can do (R66, R90). -/
theorem step_cases {s : State} (h : s.run = .running) :
    (¬ InWindow s.pc ∧ step s = .next (s.raiseOutOfRange s.pc none)) ∨
    (∃ op, memRead s.mem s.pc = .ok op ∧ decodeOpcode op = none ∧
      step s = .next (s.raiseUnknownInstruction op)) ∨
    (∃ op r, memRead s.mem s.pc = .ok op ∧ decodeOpcode op = some r ∧ 1 ≤ r.format.operandBytes ∧
      ¬ InWindow (s.pc + 1) ∧ step s = .next (s.raiseOutOfRange (s.pc + 1) (some op))) ∨
    (∃ op r, memRead s.mem s.pc = .ok op ∧ decodeOpcode op = some r ∧ r.format.operandBytes = 2 ∧
      InWindow (s.pc + 1) ∧ ¬ InWindow (s.pc + 1 + 1) ∧
      step s = .next (s.incPc.raiseOutOfRange (s.pc + 1 + 1) (some op))) ∨
    (∃ i, s.BytesAt (encode i) ∧ step s = exec i s) := by
  have hstep : step s = match fetchInstr s with | .raised t => .next t | .ok i _ => exec i s := by
    cases hf : fetchInstr s <;> simp [step, h, hf]
  rcases fetchInstr_cases s with ⟨hw, e⟩ | ⟨op, hop, hd, e⟩ | ⟨op, r, t, hop, hr, hf, e⟩ | ⟨i, hb, e⟩ <;>
    rw [e] at hstep
  · exact .inl ⟨hw, hstep⟩
  · exact .inr (.inl ⟨op, hop, hd, hstep⟩)
  · rcases fetchOperands_raised (operandBytes_le _) hf with ⟨hn, hw, rfl⟩ | ⟨hn, hw1, hw2, rfl⟩
    · exact .inr (.inr (.inl ⟨op, r, hop, hr, hn, hw, hstep⟩))
    · exact .inr (.inr (.inr (.inl ⟨op, r, hop, hr, hn, hw1, hw2, hstep⟩)))
  · exact .inr (.inr (.inr (.inr ⟨i, hb, hstep⟩)))

/-! ## Repeated steps -/

theorem run_next {s t : State} (n : Nat) (h : step s = .next t) : core.run (n + 1) s = core.run n t := by
  have h' : core.step s = .next t := h
  refine (Host.Core.run.eq_2 core s n).trans ?_
  rw [h']

theorem run_stopped {s : State} (h : s.run ≠ .running) (n : Nat) : core.run n s = .next s := by
  induction n with
  | zero => rfl
  | succ n ih => rw [run_next n (step_stopped h)]; exact ih

/-! ## Bodies have a next state -/

theorem moveByte_next (op : Byte) (dst : Dest) (src : Source) (s : State) : ∃ t, moveByte op dst src s = .next t := by
  rcases moveByte_cases op dst src s with ⟨_, _, _, _, e⟩ | ⟨_, _, e⟩ <;> exact ⟨_, e⟩

/-- No body faults the model or refuses (R88: the spec's faults are next states). -/
theorem exec_next (i : Instr) (s : State) : ∃ t, exec i s = .next t := by
  induction i using instr_cases with
  | movRR dst src => rw [exec_movRR]; exact moveByte_next _ _ _ _
  | movRM dst => rw [exec_movRM]; exact moveByte_next _ _ _ _
  | movMR src => rw [exec_movMR]; exact moveByte_next _ _ _ _
  | mviR dst v => rw [exec_mviR]; exact moveByte_next _ _ _ _
  | mviM v => rw [exec_mviM]; exact moveByte_next _ _ _ _
  | lxiRp p w => rw [exec_lxiRp]; exact ⟨_, rfl⟩
  | lxiSP w => exact ⟨_, rfl⟩
  | lda w => rw [exec_lda]; exact moveByte_next _ _ _ _
  | sta w => rw [exec_sta]; exact moveByte_next _ _ _ _
  | halt => exact ⟨_, rfl⟩

/-! ## What a body can do -/

/-- What a completed body leaves, other than that of `HALT` (R69, R70, R73): `pc` past the instruction, and every
register, `sp` and memory byte kept but its one destination. -/
structure Completed (i : Instr) (s t : State) : Prop where
  notHalt : i ≠ .halt
  run : t.run = s.run
  fault : t.fault = s.fault
  pc : t.pc = s.pc + BitVec.ofNat 16 i.length
  regs : ∀ r, r ∉ registersWritten i → t.readReg r = s.readReg r
  sp : t.sp = s.sp ∨ ∃ w, i = .lxiSP w ∧ t.sp = w
  mem : (storeAddress i s = none ∧ t.mem = s.mem) ∨
    ∃ a v, storeAddress i s = some a ∧ memWrite s.mem a v = .ok t.mem ∧
      dataTransactions i s = [s.writeTransaction a v]
  reads : storeAddress i s = none → ∀ x ∈ dataTransactions i s, ∃ a, InWindow a ∧ x = s.readTransaction a

/-- The state in which a data access of an instruction faults: its operand bytes consumed, OutOfRange at the
address (R86, R89). -/
def dataFault (i : Instr) (s : State) (ea : Word) : State :=
  (s.consume i.form.format.operandBytes).raiseOutOfRange ea (some i.form.opcode)

/-- A body halts (`HALT`), completes, or faults at its data access with nothing written (R66, R70). -/
theorem exec_cases (i : Instr) (s : State) :
    (i = .halt ∧ exec i s = .next { s with run := .halted }) ∨
    (∃ t, exec i s = .next t ∧ Completed i s t) ∨
    (∃ ea, ¬ InWindow ea ∧ i ≠ .halt ∧ exec i s = .next (dataFault i s ea) ∧
      (dataTransactions i s = [s.readTransaction ea] ∨ ∃ v, dataTransactions i s = [s.writeTransaction ea v])) := by
  induction i using instr_cases with
  | movRR dst src =>
    refine .inr (.inl ⟨_, (exec_movRR _ _ _).trans (moveByte_toRegister (readSource_register s src)), ?_⟩)
    refine ⟨by cases dst <;> cases src <;> decide, rfl, rfl, by simp [Instr.length, Form.format]; rfl, ?_,
      .inl rfl, .inl ⟨by simp [storeAddress], rfl⟩, by simp [dataTransactions]⟩
    intro r hr
    simp only [registersWritten, form_movRR, ofCode_code, Option.toList_some, List.mem_singleton] at hr
    simp [readReg_writeReg, hr]
  | movRM dst =>
    have hd : dataTransactions (.movRM dst) s = [s.readTransaction s.hl] := by simp [dataTransactions]
    have hne : Instr.movRM dst ≠ .halt := by cases dst <;> decide
    by_cases hw : InWindow s.hl
    · refine .inr (.inl ⟨_, (exec_movRM _ _).trans (moveByte_toRegister (memRead_inWindow s.mem hw)), ?_⟩)
      refine ⟨hne, rfl, rfl, by simp [Instr.length, Form.format]; rfl, ?_,
        .inl rfl, .inl ⟨by simp [storeAddress], rfl⟩, ?_⟩
      · intro r hr
        simp only [registersWritten, form_movRM, ofCode_code, Option.toList_some, List.mem_singleton] at hr
        simp [readReg_writeReg, hr]
      · intro _ x hx
        rw [hd, List.mem_singleton] at hx
        exact ⟨_, hw, hx⟩
    · refine .inr (.inr ⟨s.hl, hw, hne, ?_, .inl hd⟩)
      rw [exec_movRM, movRM, State.sourceM, moveByte_readFault hw]
      simp [dataFault, Form.format, Format.operandBytes, State.consume]
  | movMR src =>
    have hd : dataTransactions (.movMR src) s = [s.writeTransaction s.hl (s.readReg src)] := by
      simp [dataTransactions, State.readPort]
    have hne : Instr.movMR src ≠ .halt := by cases src <;> decide
    by_cases hw : InWindow s.hl
    · have hwr := memWrite_inWindow s.mem (s.readReg src) hw
      refine .inr (.inl ⟨_, (exec_movMR _ _).trans (moveByte_toMemory (readSource_register s src) hwr), ?_⟩)
      have hst : storeAddress (.movMR src) s = some s.hl := by simp [storeAddress, State.destM, Dest.address]
      exact ⟨hne, rfl, rfl, by simp [Instr.length, Form.format]; rfl, fun r _ => by cases r <;> rfl,
        .inl rfl, .inr ⟨_, _, hst, hwr, hd⟩, by simp [hst]⟩
    · refine .inr (.inr ⟨s.hl, hw, hne, ?_, .inr ⟨_, hd⟩⟩)
      rw [exec_movMR, movMR, State.destM, moveByte_writeFault (readSource_register s src) hw]
      simp [dataFault, Form.format, Format.operandBytes, State.consume]
  | mviR dst v =>
    refine .inr (.inl ⟨_, (exec_mviR _ _ _).trans (moveByte_toRegister (readSource_immediate _ v)), ?_⟩)
    refine ⟨by cases dst <;> simp [Instr.mviR], by simp, by simp, ?_, ?_,
      .inl (by simp), .inl ⟨by simp [storeAddress], by simp⟩, by simp [dataTransactions]⟩
    · simp [Instr.length, Form.format, Format.length, Format.operandBytes, BitVec.add_assoc]
    · intro r hr
      simp only [registersWritten, form_mviR, ofCode_code, Option.toList_some, List.mem_singleton] at hr
      simp [readReg_writeReg, hr]
  | mviM v =>
    have hd : dataTransactions (.mviM v) s = [s.writeTransaction s.hl v] := by simp [dataTransactions]
    by_cases hw : InWindow s.hl
    · have hwr := memWrite_inWindow s.mem v hw
      refine .inr (.inl ⟨_, (exec_mviM _ _).trans
        (moveByte_toMemory (s := s.consume 1) (ea := s.hl) (readSource_immediate _ v) hwr), ?_⟩)
      have hst : storeAddress (.mviM v) s = some s.hl := by simp [storeAddress, State.destM, Dest.address]
      refine ⟨by simp, rfl, rfl, ?_, fun r _ => by cases r <;> rfl, .inl rfl, .inr ⟨_, _, hst, hwr, hd⟩, by simp [hst]⟩
      simp [Instr.length, Form.format, Format.length, Format.operandBytes, BitVec.add_assoc]
    · refine .inr (.inr ⟨s.hl, hw, by simp, ?_, .inr ⟨_, hd⟩⟩)
      have hw' : ¬ InWindow (s.consume 1).hl := by simpa using hw
      rw [exec_mviM, mviM, State.destM, moveByte_writeFault (readSource_immediate _ v) hw', consume_hl]
      simp [dataFault, Form.format, Format.operandBytes]
  | lxiRp p w =>
    refine .inr (.inl ⟨_, (exec_lxiRp _ _ _).trans rfl, ?_⟩)
    refine ⟨by cases p <;> simp [Instr.lxiRp], by simp, by simp, ?_, ?_,
      .inl (by simp), .inl ⟨by simp [storeAddress], by simp⟩, by simp [dataTransactions]⟩
    · simp [Instr.length, Form.format, Format.length, Format.operandBytes, BitVec.add_assoc]
    · intro r hr
      simp only [registersWritten, form_lxiRp, pair_ofCode_code, Option.map_some, Option.getD_some, List.mem_cons,
        List.not_mem_nil, or_false, not_or] at hr
      simp [readReg_writePair, hr]
  | lxiSP w =>
    refine .inr (.inl ⟨_, (exec_lxiSP _ _).trans rfl, ?_⟩)
    refine ⟨by simp, rfl, rfl, ?_, fun r _ => by cases r <;> rfl, .inr ⟨w, rfl, rfl⟩, .inl ⟨rfl, rfl⟩,
      by simp [dataTransactions]⟩
    simp [Instr.length, Form.format, Format.length, Format.operandBytes, BitVec.add_assoc]
  | lda w =>
    by_cases hw : InWindow w
    · refine .inr (.inl ⟨_, (exec_lda _ _).trans
        (moveByte_toRegister (s := s.consume 2) (memRead_inWindow s.mem hw)), ?_⟩)
      refine ⟨by simp, rfl, rfl, ?_, ?_, .inl rfl, .inl ⟨rfl, rfl⟩, ?_⟩
      · simp [Instr.length, Form.format, Format.length, Format.operandBytes, BitVec.add_assoc]
      · intro r hr
        simp only [registersWritten, form_lda, List.mem_singleton] at hr
        simp [readReg_writeReg, hr]
      · intro _ x hx
        simp only [dataTransactions, form_lda, List.mem_singleton] at hx
        exact ⟨_, hw, hx⟩
    · refine .inr (.inr ⟨w, hw, by simp, ?_, .inl (by simp [dataTransactions])⟩)
      rw [exec_lda, execLda, moveByte_readFault hw]
      rfl
  | sta w =>
    by_cases hw : InWindow w
    · have hwr := memWrite_inWindow s.mem s.regs.a hw
      refine .inr (.inl ⟨_, (exec_sta _ _).trans
        (moveByte_toMemory (s := s.consume 2) (readSource_register _ .a) hwr), ?_⟩)
      refine ⟨by simp, rfl, rfl, ?_, fun r _ => by cases r <;> rfl, .inl rfl,
        .inr ⟨_, _, rfl, hwr, by simp [dataTransactions]⟩, by simp [storeAddress]⟩
      simp [Instr.length, Form.format, Format.length, Format.operandBytes, BitVec.add_assoc]
    · refine .inr (.inr ⟨w, hw, by simp, ?_, .inr ⟨s.regs.a, by simp [dataTransactions]⟩⟩)
      rw [exec_sta, execSta, moveByte_writeFault (readSource_register _ .a) hw]
      rfl
  | halt => exact .inl ⟨rfl, rfl⟩

end Sys2Proof.Machine
end

