-- ==== Sys2Proof/Machine/Assembler.lean ====
section
/-! DEFINITION. The assembler text of an instruction (spec 30_encoding.md R61): mnemonic, then destination
before source. There are no pseudo-instructions (R62). Literals are written `0x..` (decision D14; log 15). -/
namespace Sys2Proof.Machine

/-- A register's name (10_state.md R13). -/
def regName : Reg → String
  | .b => "B" | .c => "C" | .d => "D" | .e => "E" | .h => "H" | .l => "L" | .a => "A"

/-- The name an operand code has: a register, or `M` for code `110` (R14, R61). -/
def codeName (c : BitVec 3) : String := ((Reg.ofCode c).map regName).getD "M"

/-- The spelling of an `LXI` pair: its first-named register, or `SP` (R61). -/
def pairName (c : BitVec 2) : String := ((Pair.ofCode c).map (fun p => regName p.highReg)).getD "SP"

/-- One hexadecimal digit. -/
def hexDigit (d : BitVec 4) : String :=
  ["0", "1", "2", "3", "4", "5", "6", "7", "8", "9", "A", "B", "C", "D", "E", "F"].getD d.toNat "0"

/-- Two hexadecimal digits. -/
def hexByte (v : Byte) : String := hexDigit (v.extractLsb' 4 4) ++ hexDigit (v.extractLsb' 0 4)

/-- `data8` as a literal. -/
def literal8 (v : Byte) : String := "0x" ++ hexByte v

/-- `data16` or `addr16` as one 16-bit literal. -/
def literal16 (w : Word) : String := "0x" ++ hexByte (highByte w) ++ hexByte (lowByte w)

/-- The syntax column of R61. -/
def assemblyText (i : Instr) : String :=
  match i.form with
  | .movRR ddd sss => "MOV " ++ codeName ddd ++ ", " ++ codeName sss
  | .movRM ddd => "MOV " ++ codeName ddd ++ ", M"
  | .movMR sss => "MOV M, " ++ codeName sss
  | .mviR ddd data8 => "MVI " ++ codeName ddd ++ ", " ++ literal8 data8
  | .mviM data8 => "MVI M, " ++ literal8 data8
  | .lxiRp pp data16 => "LXI " ++ pairName pp ++ ", " ++ literal16 data16
  | .lxiSp data16 => "LXI SP, " ++ literal16 data16
  | .lda addr16 => "LDA " ++ literal16 addr16
  | .sta addr16 => "STA " ++ literal16 addr16
  | .halt => "HALT"

end Sys2Proof.Machine
end

