-- ==== Sys2Proof/Machine/Flags.lean ====
section
/-! DEFINITION. The flags: there are none. "The block has no flag or condition-code register. No instruction
sets, clears or reads a flag." (spec 10_state.md R24). This file is empty of definitions for that reason. -/
end

