-- ==== Sys2Proof/Tests/Slice0.lean ====
section
/-! SUPPORT. The model's own tests. Expected results are the vectors and worked examples of spec/95_test_vectors.md
(the id stands in the comment) or are worked out by hand from a rule; words are written bit by bit from the
formats of 30_encoding.md R49. After them, one witness for each statement with hypotheses. -/
namespace Sys2Proof.Tests

open Sys2Proof.Machine

/-! ## WellFormed: each check refuses an ill-formed term (R55) -/

theorem test_wf_refuses_movRR_dst : (Form.movRR 0b110 0b000).wellFormed = false := by decide
theorem test_wf_refuses_movRR_src : (Form.movRR 0b000 0b110).wellFormed = false := by decide
theorem test_wf_refuses_movMM : (Form.movRR 0b110 0b110).wellFormed = false := by decide
theorem test_wf_refuses_movRM : (Form.movRM 0b110).wellFormed = false := by decide
theorem test_wf_refuses_movMR : (Form.movMR 0b110).wellFormed = false := by decide
theorem test_wf_refuses_mviR : (Form.mviR 0b110 0x42).wellFormed = false := by decide
theorem test_wf_refuses_lxiRp : (Form.lxiRp 0b11 0x1234).wellFormed = false := by decide
theorem test_wf_accepts : (Form.movRR 0b111 0b000).wellFormed = true ∧ (Form.lxiRp 0b10 0).wellFormed = true := by decide

/-! ## Decode: the encodings of R49 with the codes of R14 and R51, and the class table V-DEC -/

theorem test_decode_movRR : decode [0b01#2 ++ 0b111#3 ++ 0b000#3] = .instr .movAB [] := by decide
theorem test_decode_movRR_low : decode [0b01#2 ++ 0b000#3 ++ 0b000#3] = .instr .movBB [] := by decide
theorem test_decode_movRM : decode [0b01#2 ++ 0b000#3 ++ 0b110#3] = .instr .movBM [] := by decide
theorem test_decode_movMR : decode [0b01#2 ++ 0b110#3 ++ 0b000#3] = .instr .movMB [] := by decide
theorem test_decode_mviR : decode [0b00#2 ++ 0b111#3 ++ 0b110#3, 0x99] = .instr (.mviA 0x99) [] := by decide
theorem test_decode_mviM : decode [0b00#2 ++ 0b110#3 ++ 0b110#3, 0x5A] = .instr (.mviM 0x5A) [] := by decide
theorem test_decode_lxiB : decode [0b00#2 ++ 0b00#2 ++ 0b0001#4, 0x34, 0x12] = .instr (.lxiB 0x1234) [] := by decide
theorem test_decode_lxiD : decode [0b00#2 ++ 0b01#2 ++ 0b0001#4, 0xEF, 0xBE] = .instr (.lxiD 0xBEEF) [] := by decide
theorem test_decode_lxiSP : decode [0b00#2 ++ 0b11#2 ++ 0b0001#4, 0xFF, 0x27] = .instr (.lxiSP 0x27FF) [] := by decide
theorem test_decode_halt : decode [0b01#2 ++ 0b110#3 ++ 0b110#3] = .instr .halt [] := by decide
theorem test_decode_lda : decode [0x3A, 0x00, 0x21, 0x76] = .instr (.lda 0x2100) [0x76] := by decide
theorem test_decode_sta : decode [0x32, 0x00, 0x21] = .instr (.sta 0x2100) [] := by decide
theorem test_decode_unknown : decode [0x09] = .rejected (.unknownInstruction 0x09) ∧
    decode [0xC0] = .rejected (.unknownInstruction 0xC0) ∧ decode [0x3F] = .rejected (.unknownInstruction 0x3F) := by decide
theorem test_decode_short : decode [0x21, 0x34] = .rejected (.operandMissing 0x21) ∧ decode [] = .rejected .noOpcode := by
  decide

/-- The bytes of the opcode table, in its order, decode to the constructors in their order: every row is one byte that
selects the row's own instruction (R60). -/
theorem test_decode_table_row_ends : decodeTableWord 8 0x01 = some (.lxiB 0) ∧ decodeTableWord 16 0x4206 = some (.mviB 0x42) ∧
    decodeTableWord 24 0x123421 = some (.lxiH 0x1234) ∧ decodeTableWord 8 0x7F = some .movAA ∧
    decodeTableWord 8 0x00 = none := by decide

theorem test_encode : encode (.lxiH 0x1234) = [0x21, 0x34, 0x12] ∧ encode (.mviB 0x42) = [0x06, 0x42] ∧
    encode .movAB = [0x78] ∧ encode .movCM = [0x4E] ∧ encode .movMA = [0x77] ∧ encode .halt = [0x76] := by decide

/-! ## Assembler text: the examples of R61 -/

theorem test_asm_mov : assemblyText .movAB = "MOV A, B" ∧ assemblyText .movCM = "MOV C, M" ∧
    assemblyText .movMA = "MOV M, A" ∧ assemblyText .halt = "HALT" := by decide
theorem test_asm_imm : assemblyText (.mviB 0x42) = "MVI B, 0x42" ∧ assemblyText (.mviM 0x5A) = "MVI M, 0x5A" ∧
    assemblyText (.lxiH 0x1234) = "LXI H, 0x1234" ∧ assemblyText (.lxiSP 0x27FF) = "LXI SP, 0x27FF" ∧
    assemblyText (.lda 0x2100) = "LDA 0x2100" := by decide

/-! ## One step: vectors of spec/95_test_vectors.md, part 2 -/

/-- The reset state with bytes placed at `pc`, registers set, and one more byte of memory. -/
def start (bytes : List Byte) (regs : List (Reg × Byte) := []) (pc : Word := 0x2000)
    (cell : Word × Byte := (0x2000, 0)) : State :=
  let s := regs.foldl (fun s rv => s.writeReg rv.1 rv.2) State.reset
  { s with pc := pc, mem := memWriteBytes (memWriteBytes s.mem cell.1 [cell.2]) pc bytes }

/-- A predicate of the state after a step. -/
def after (s : State) (p : State → Bool) : Bool :=
  match step s with
  | .next t => p t
  | .fault _ => false
  | .refused _ => false

/-- The step faulted with this `pc` and record. -/
def faults (s : State) (pc : Word) (record : FaultRecord) : Bool :=
  after s fun t => t.run == .faulted && t.pc == pc && t.fault == record && t.regs == s.regs && t.mem == s.mem

/-- V1. -/
theorem test_movAB : after (start [0x78] [(.b, 0x42)]) (fun t => t.regs.a == 0x42 && t.pc == 0x2001) = true := by decide
/-- V3. -/
theorem test_movLH : after (start [0x6C] [(.h, 0x21), (.l, 0x05)]) (fun t => t.regs.l == 0x21 && t.pc == 0x2001) = true := by
  decide
/-- V6. -/
theorem test_movCM : after (start [0x4E] [(.h, 0x21)] 0x2000 (0x2100, 0x5A)) (fun t => t.regs.c == 0x5A) = true := by decide
/-- V7. -/
theorem test_movHM : after (start [0x66] [(.h, 0x21), (.l, 0x10)] 0x2000 (0x2110, 0x22))
    (fun t => t.regs.h == 0x22 && t.regs.l == 0x10) = true := by decide
/-- V9. -/
theorem test_movAM_fault : faults (start [0x7E]) 0x2000 ⟨.outOfRange, 0x0000, some 0x7E⟩ = true := by decide
/-- V10. -/
theorem test_movBM_last : after (start [0x46] [(.h, 0x27), (.l, 0xFF)] 0x2000 (0x27FF, 0xAB))
    (fun t => t.regs.b == 0xAB) = true := by decide
/-- V13. -/
theorem test_movMH : after (start [0x74] [(.h, 0x21), (.l, 0x34)]) (fun t => memRead t.mem 0x2134 == .ok 0x21) = true := by
  decide
/-- V15. -/
theorem test_movMB_fault : faults (start [0x70] [(.h, 0x1F), (.l, 0xFF), (.b, 0x55)]) 0x2000
    ⟨.outOfRange, 0x1FFF, some 0x70⟩ = true := by decide
/-- V19. -/
theorem test_mviL : after (start [0x2E, 0xFF]) (fun t => t.regs.l == 0xFF && t.pc == 0x2002) = true := by decide
/-- V20. -/
theorem test_mviC_fault : faults (start [0x0E] [(.c, 0x12)] 0x27FF) 0x27FF ⟨.outOfRange, 0x2800, some 0x0E⟩ = true := by
  decide
/-- V22. -/
theorem test_mviM_fault :
    after (start [0x36, 0x5A]) (fun t => t.pc == 0x2001 && t.fault == ⟨.outOfRange, 0x0000, some 0x36⟩) = true := by decide
/-- V23. -/
theorem test_mviM_own_operand : after (start [0x36, 0x5A] [(.h, 0x20), (.l, 0x01)])
    (fun t => memRead t.mem 0x2001 == .ok 0x5A && t.pc == 0x2002) = true := by decide
/-- V26. -/
theorem test_lxiD : after (start [0x11, 0xEF, 0xBE]) (fun t => t.regs.d == 0xBE && t.regs.e == 0xEF && t.pc == 0x2003) = true := by
  decide
/-- V31. -/
theorem test_lxiH_fault : faults (start [0x21, 0x34] [(.h, 0xAA), (.l, 0xBB)] 0x27FE) 0x27FF
    ⟨.outOfRange, 0x2800, some 0x21⟩ = true := by decide
/-- V29. -/
theorem test_lxiSP : after (start [0x31, 0xFF, 0x27]) (fun t => t.sp == 0x27FF && t.pc == 0x2003) = true := by decide
/-- V34. -/
theorem test_lda_last : after (start [0x3A, 0xFF, 0x27] [] 0x2000 (0x27FF, 0xC3)) (fun t => t.regs.a == 0xC3) = true := by decide
/-- V36. -/
theorem test_lda_fault : after (start [0x3A, 0xFF, 0x1F] [(.a, 0x01)])
    (fun t => t.pc == 0x2002 && t.fault == ⟨.outOfRange, 0x1FFF, some 0x3A⟩ && t.regs.a == 0x01) = true := by decide
/-- V40. -/
theorem test_sta_own_opcode : after (start [0x32, 0x00, 0x20] [(.a, 0x99)])
    (fun t => memRead t.mem 0x2000 == .ok 0x99 && t.pc == 0x2003 && t.run == .running) = true := by decide
/-- V43. -/
theorem test_sta_operand_fault : faults (start [0x32] [(.a, 0x99)] 0x27FF) 0x27FF ⟨.outOfRange, 0x2800, some 0x32⟩ = true := by
  decide
/-- V45. -/
theorem test_halt_last : after (start [0x76] [] 0x27FF) (fun t => t.run == .halted && t.pc == 0x27FF) = true := by decide
/-- V51: an unknown opcode at the last address is UnknownInstruction (R90). -/
theorem test_unknown_last : faults (start [0xC3] [] 0x27FF) 0x27FF ⟨.unknownInstruction, 0x27FF, some 0xC3⟩ = true := by decide
/-- V52. -/
theorem test_fetch_outside : faults (start [] [] 0x2800) 0x2800 ⟨.outOfRange, 0x2800, none⟩ = true := by decide
/-- V53: a step in Faulted changes nothing. -/
theorem test_step_faulted :
    after { State.reset with run := .faulted } (fun t => t == { State.reset with run := .faulted }) = true := by decide
/-- From reset with nothing placed, the first step meets the zero byte (R102, P4). -/
theorem test_reset_step : faults State.reset 0x2000 ⟨.unknownInstruction, 0x2000, some 0x00⟩ = true := by decide
/-- R41: the transactions of `STA`. -/
theorem test_trace_sta : busTrace (start [0x32, 0x00, 0x21] [(.a, 0x99)]) =
    [.read 0x2000 (.ok 0x32), .read 0x2001 (.ok 0x00), .read 0x2002 (.ok 0x21), .write 0x2100 0x99 (.ok ())] := by decide
/-- R85, R20: the codes on the observation port. -/
theorem test_observe_codes : (observe { State.reset with run := .faulted, fault := ⟨.unknownInstruction, 0, none⟩ }).run = 2 ∧
    (observe { State.reset with run := .faulted, fault := ⟨.unknownInstruction, 0, none⟩ }).faultKind = 2 := by decide
/-- How a sequence of moves from construction ends: `some` of the block's run state, or `none` where a load is refused. -/
def movesEnd (moves : List HostMove) : Option RunState :=
  match hostMoves .initial moves with
  | .next (t, _) => some t.block.run
  | .fault _ => none
  | .refused _ => none

/-- R103, U12: a load after execution began is no legal move and is refused, mid-run and in Halted; after a new reset it is
one. -/
theorem test_moves : movesLegal false [.load 0x2000 0x76, .step, .load 0x2001 0] = false ∧
    movesEnd [.load 0x2000 0x78, .step, .load 0x2001 0x76] = none ∧
    movesEnd [.load 0x2000 0x76, .step, .load 0x2000 0x76] = none ∧
    movesEnd [.load 0x2000 0x76, .step, .reset, .load 0x2000 0x76, .observe, .execute none] = some .halted := by decide
/-- R103: the replies of an in-window load, an out-of-window load and a step. -/
theorem test_replies : (match hostMoves .initial [.load 0x27FF 0x01, .load 0x2800 0x01, .step] with
    | .next (_, replies) => replies == [.written (.ok ()), .written .outOfRange, .nothing]
    | .fault _ => false
    | .refused _ => false) = true := by decide
/-- The placed instruction is the one the next step runs, as the host asks of the opcode table's rows. -/
theorem test_placed_runs : after (State.reset.withFetchWord 16 0x4206) (fun t => t.regs.b == 0x42 && t.pc == 0x2002) = true := by
  decide

/-! ## Witnesses: the hypotheses of each statement can be met -/

/-- `bs` stand at `pc`, checked byte by byte. -/
theorem bytesAt_of_all {s : State} {bs : List Byte}
    (h : (List.range bs.length).all (fun k => memRead s.mem (s.pc + BitVec.ofNat 16 k) == .ok (bs.getD k 0)) = true) :
    s.BytesAt bs := by
  intro k hk
  have := List.all_eq_true.1 h k (List.mem_range.2 hk)
  simpa [List.getD_eq_getElem?_getD, hk] using this

theorem test_witness_DecodedBytesAreTheEncoding : decode [0x21, 0x34, 0x12, 0x76] = .instr (.lxiH 0x1234) [0x76] := by decide

/-- A three-byte instruction whose last byte is the last of the window. -/
theorem test_witness_StepRunsDecodedInstruction : ∃ s : State, s.run = .running ∧ s.pc = 0x27FD ∧
    s.BytesAt [0x32, 0x00, 0x21] ∧ decode [0x32, 0x00, 0x21] = .instr (.sta 0x2100) [] :=
  ⟨start [0x32, 0x00, 0x21] [] 0x27FD, rfl, rfl, bytesAt_of_all (by decide), by decide⟩

theorem test_witness_PlacedInstructionRunsNext : InWindow State.reset.pc ∧ InWindow (State.reset.pc + 2) ∧
    decodeTableWord 8 0x78 = some .movAB := by decide

theorem test_witness_StoppedStepChangesNothing : ({ State.reset with run := .halted } : State).run ≠ .running := by decide

theorem test_witness_HaltByteHalts : (start [0x76]).run = .running ∧ memRead (start [0x76]).mem (start [0x76]).pc = .ok 0x76 := by
  decide

/-- Both sides of the window. -/
theorem test_witness_OpcodeFetchOutsideWindowFaults : (start [] [] 0x2800).run = .running ∧ ¬ InWindow (start [] [] 0x2800).pc ∧
    ¬ InWindow (start [] [] 0x1FFF).pc := by decide

theorem test_witness_UnknownOpcodeFaults : (start [0x3F]).run = .running ∧
    memRead (start [0x3F]).mem (start [0x3F]).pc = .ok 0x3F ∧ illegalOpcode 0x3F = true := by decide

theorem test_witness_FirstOperandOutsideWindowFaults : (start [0x0E] [] 0x27FF).run = .running ∧
    2 ≤ (Instr.mviC 0).length ∧ memRead (start [0x0E] [] 0x27FF).mem 0x27FF = .ok (Instr.mviC 0).form.opcode ∧
    ¬ InWindow ((start [0x0E] [] 0x27FF).pc + 1) := by decide

theorem test_witness_SecondOperandOutsideWindowFaults : (start [0x21, 0x34] [] 0x27FE).run = .running ∧
    (Instr.lxiH 0).length = 3 ∧ memRead (start [0x21, 0x34] [] 0x27FE).mem 0x27FE = .ok (Instr.lxiH 0).form.opcode ∧
    InWindow ((start [0x21, 0x34] [] 0x27FE).pc + 1) ∧ ¬ InWindow ((start [0x21, 0x34] [] 0x27FE).pc + 2) := by decide

/-- `H:L` just below and just above the window. -/
theorem test_witness_IndirectAccessOutsideWindowFaults : ¬ InWindow (cat 0x1F 0xFF) ∧ ¬ InWindow (cat 0x28 0x00) := by decide

theorem test_witness_DirectAccessOutsideWindowFaults : ¬ InWindow 0x1FFF ∧ ¬ InWindow 0x2800 := by decide

/-- The state a step leads to. -/
def stepTo (s : State) : State :=
  match step s with
  | .next t => t
  | .fault _ => s
  | .refused _ => s

theorem test_witness_FaultsArePrecise : ∃ s t : State, s.run = .running ∧ step s = .next t ∧ t.run = .faulted :=
  ⟨State.reset, stepTo State.reset, rfl, rfl, rfl⟩

/-- `H:L` at both ends of the window, for `MOV r,M`, `MOV M,r`, `MVI M` and the statements over them. -/
theorem test_witness_MovMemoryToRegister :
    InWindow (cat (start [] [(.h, 0x20)]).regs.h (start [] [(.h, 0x20)]).regs.l) ∧ InWindow (cat 0x27 0xFF) := by decide

/-- Both ends of the window, and the addresses just outside it. -/
theorem test_witness_MovRegisterToMemory : (start [] [(.h, 0x20)]).hl = 0x2000 ∧ InWindow (start [] [(.h, 0x20)]).hl ∧
    InWindow (start [] [(.h, 0x27), (.l, 0xFF)]).hl ∧
    ¬ InWindow (start [] [(.h, 0x1F), (.l, 0xFF)]).hl ∧ ¬ InWindow (start [] [(.h, 0x28)]).hl := by decide

theorem test_witness_MviToMemory : InWindow (cat (start [] [(.h, 0x27), (.l, 0xFF)]).regs.h (start [] [(.h, 0x27), (.l, 0xFF)]).regs.l) := by
  decide

theorem test_witness_LdaLoadsA : InWindow 0x2000 ∧ InWindow 0x27FF := by decide

theorem test_witness_StaStoresA : InWindow 0x2000 ∧ InWindow 0x27FF := by decide

theorem test_witness_CompletedStepAdvancesByLength : ∃ (s t : State) (i : Instr), s.run = .running ∧
    s.BytesAt (encode i) ∧ step s = .next t ∧ t.run = .running :=
  ⟨start [0x31, 0xFF, 0x27] [] 0x27FD, stepTo (start [0x31, 0xFF, 0x27] [] 0x27FD), .lxiSP 0x27FF, rfl,
    bytesAt_of_all (by decide), rfl, rfl⟩

/-- The last address a run can stand at, `pc = BASE + SIZE`, meets the invariant. -/
theorem test_inv_at_end : (start [] [] 0x2800).Inv :=
  ⟨by decide, by constructor <;> decide, (fun h => nomatch h), (fun h => nomatch h)⟩

theorem test_witness_ProgramCounterOnlyMovesForward : ∃ s t : State, s.Inv ∧ step s = .next t :=
  ⟨start [] [] 0x2800, stepTo (start [] [] 0x2800), test_inv_at_end, rfl⟩

/-- A Running, a Halted and a Faulted state that meet the invariant, each with its next state. -/
theorem test_witness_StepKeepsInvariant :
    (∃ s t : State, s.Inv ∧ s.run = .running ∧ step s = .next t) ∧
    (∃ s t : State, s.Inv ∧ s.run = .halted ∧ step s = .next t) ∧
    (∃ s t : State, s.Inv ∧ s.run = .faulted ∧ step s = .next t) :=
  ⟨⟨_, stepTo (start [] [] 0x2800), test_inv_at_end, rfl, rfl⟩,
   ⟨{ start [0x76] with run := .halted }, _,
    ⟨by decide, by constructor <;> decide, fun _ => by decide, (fun h => nomatch h)⟩, rfl, rfl⟩,
   ⟨{ State.reset with run := .faulted, fault := ⟨.unknownInstruction, 0x2000, some 0x00⟩ }, _,
    ⟨by decide, by constructor <;> decide, (fun h => nomatch h),
      fun _ => .inr ⟨rfl, rfl, 0x00, rfl, by decide, Option.isNone_iff_eq_none.1 (by decide)⟩⟩, rfl, rfl⟩⟩

theorem test_witness_RunStateTransitions :
    (∃ s t : State, step s = .next t ∧ s.run = .running ∧ t.run = .halted) ∧
    (∃ s t : State, step s = .next t ∧ s.run = .halted) ∧ (∃ s t : State, step s = .next t ∧ s.run = .faulted) :=
  ⟨⟨start [0x76], stepTo (start [0x76]), rfl, rfl, rfl⟩, ⟨{ State.reset with run := .halted }, _, rfl, rfl⟩,
   ⟨{ State.reset with run := .faulted }, _, rfl, rfl⟩⟩

theorem test_witness_OnlyListedInstructionsWriteARegister : ∃ (s t : State) (r : Reg), step s = .next t ∧
    t.readReg r ≠ s.readReg r :=
  ⟨start [0x06, 0x42], stepTo (start [0x06, 0x42]), .b, rfl, by decide⟩

theorem test_witness_OnlyLxiSpWritesStackPointer : ∃ s t : State, step s = .next t ∧ t.sp ≠ s.sp :=
  ⟨start [0x31, 0xFF, 0x27], stepTo (start [0x31, 0xFF, 0x27]), rfl, by decide⟩

theorem test_witness_OnlyStoresChangeMemory : ∃ (s t : State) (a : Word), step s = .next t ∧
    memRead t.mem a ≠ memRead s.mem a :=
  ⟨start [0x32, 0xFF, 0x27] [(.a, 0x99)], stepTo (start [0x32, 0xFF, 0x27] [(.a, 0x99)]), 0x27FF, rfl, by decide⟩

/-- A step that faults and one that completes. -/
theorem test_witness_StackPointerAndFaultRecordAreNotRead :
    (∃ s t : State, step s = .next t ∧ s.run = .running ∧ t.run = .faulted) ∧
    (∃ s t : State, step s = .next t ∧ ¬ (s.run = .running ∧ t.run = .faulted)) :=
  ⟨⟨start [0x7E], stepTo (start [0x7E]), rfl, rfl, rfl⟩, ⟨start [0x78], stepTo (start [0x78]), rfl, by decide⟩⟩

/-- Both ends of the window and the addresses just outside it. -/
theorem test_witness_ResetZeroFillsWindow :
    InWindow 0x2000 ∧ InWindow 0x27FF ∧ ¬ InWindow 0x1FFF ∧ ¬ InWindow 0x2800 := by decide

theorem test_witness_RegisterPortsWriteOneRegister : (0b111#3 : BitVec 3) ≠ 0b110 ∧ (0b000#3 : BitVec 3) ≠ 0b111 := by decide

theorem test_witness_BusReadAnswersOnlyInWindow :
    (0x2000 ≤ (0x27FF : Word).toNat ∧ (0x27FF : Word).toNat ≤ 0x27FF) ∧
    ¬ (0x2000 ≤ (0x2800 : Word).toNat ∧ (0x2800 : Word).toNat ≤ 0x27FF) := by decide

theorem test_witness_BusWriteReplacesOneByte :
    (0x2000 ≤ (0x2000 : Word).toNat ∧ (0x2000 : Word).toNat ≤ 0x27FF) ∧
    ¬ (0x2000 ≤ (0x1FFF : Word).toNat ∧ (0x1FFF : Word).toNat ≤ 0x27FF) := by decide

theorem test_witness_LoaderWritesThroughTheGate : InWindow 0x2000 ∧ ¬ InWindow 0x0000 := by decide

theorem test_witness_LoadedInstructionRunsFirst : ∃ (regs : RegFile) (sp : Word) (i : Instr) (s : State),
    s = (State.resetWith regs sp).loadAll ((encode i).mapIdx fun k v => (Config.base + BitVec.ofNat 16 k, v)) ∧
    s.mem = [(0x2000, 0x21), (0x2001, 0x34), (0x2002, 0x12)] :=
  ⟨State.reset.regs, 0xFFFF, .lxiH 0x1234, _, rfl, by decide⟩

theorem test_witness_TransactionsAreAsTabled : ∃ (s : State) (i : Instr), s.run = .running ∧ s.BytesAt (encode i) :=
  ⟨start [0x36, 0x5A], .mviM 0x5A, rfl, bytesAt_of_all (by decide)⟩

/-- A step whose last transaction is rejected and one with none rejected. -/
theorem test_witness_TransactionsTellMemoryAndFault :
    (∃ s t : State, s.run = .running ∧ step s = .next t ∧ t.fault.kind = .outOfRange) ∧
    (∃ s t : State, s.run = .running ∧ step s = .next t ∧ t.run = .running) :=
  ⟨⟨start [0x7E], stepTo (start [0x7E]), rfl, rfl, rfl⟩, ⟨start [0x78], stepTo (start [0x78]), rfl, rfl, rfl⟩⟩

theorem test_witness_StoreThenLoadThroughPointer : InWindow (cat (start [] [(.h, 0x21)]).regs.h (start [] [(.h, 0x21)]).regs.l) := by
  decide

theorem test_witness_StoreThenLoadDirect : InWindow 0x2200 := by decide

/-- The store that P2 of 95_test_vectors.md makes, with a HALT byte and with an illegal byte in A. -/
theorem test_witness_StoreIntoNextOpcodeIsFetched : ∃ s u : State,
    (s.run = .running ∧ s.BytesAt (encode (.sta (s.pc + 3))) ∧ InWindow (s.pc + 3) ∧ s.regs.a = 0x76) ∧
    (u.run = .running ∧ u.BytesAt (encode (.sta (u.pc + 3))) ∧ InWindow (u.pc + 3) ∧ illegalOpcode u.regs.a = true) :=
  ⟨start [0x32, 0x05, 0x20] [(.a, 0x76)] 0x2002, start [0x32, 0x05, 0x20] [(.a, 0xFF)] 0x2002,
    ⟨rfl, bytesAt_of_all (by decide), by decide, rfl⟩, ⟨rfl, bytesAt_of_all (by decide), by decide, rfl⟩⟩

theorem test_witness_LoadOnlyBeforeExecution : InWindow 0x2000 ∧ InWindow 0x27FF ∧ ¬ InWindow 0x1FFF ∧ ¬ InWindow 0x2800 := by
  decide

theorem test_witness_AnsweredMovesAreTheLegalOnes :
    movesLegal Session.initial.begun [.load 0x2000 0x76, .execute none, .observe, .reset, .load 0x2000 0x76] = true ∧
    movesLegal Session.initial.begun [.execute (some 0), .load 0x2000 0x76] = false := by decide

/-- Before execution and during it, each with a move that is answered. -/
theorem test_witness_HostMovesKeepSessionInvariant :
    (∃ (h k : Session) (reply : HostReply), h.Inv ∧ h.begun = false ∧ hostMove h (.load 0x2000 0x76) = .next (k, reply)) ∧
    (∃ (h k : Session) (reply : HostReply), h.Inv ∧ h.begun = true ∧ hostMove h .step = .next (k, reply)) :=
  ⟨⟨.initial, _, _, ⟨⟨by decide, by constructor <;> decide, (fun h => nomatch h), (fun h => nomatch h)⟩, fun _ => ⟨rfl, rfl⟩⟩,
      rfl, rfl⟩,
   ⟨⟨start [] [] 0x2800, true⟩, ⟨stepTo (start [] [] 0x2800), true⟩, .nothing, ⟨test_inv_at_end, (fun h => nomatch h)⟩, rfl, rfl⟩⟩

end Sys2Proof.Tests
end

section
/-! PROOFS. What one step of a running block can end in, said once: HALT, a completed instruction, or a fault that
wrote nothing (spec 10_state.md R21, 40_cycle.md R65, R66, R70, 60_exceptions.md R88, R89). -/
namespace Sys2Proof.Machine

/-! ## The HALT byte -/

/-- The byte `0x76` is `HALT` and no other instruction's opcode (R56). -/
theorem eq_halt_of_opcode {i : Instr} (h : i.form.opcode = opcHalt) : i = .halt := by
  cases i with
  | halt => rfl
  | _ =>
    simp only [Instr.form, Form.opcode] at h
    exact absurd h (by decide)

/-- The row that the HALT byte selects has no operand (R49, R55). -/
theorem decodeOpcode_opcHalt : ∃ r, decodeOpcode opcHalt = some r ∧ r.format.operandBytes = 0 := by
  obtain ⟨r, hr, hf⟩ := decodeOpcode_opcode .halt
  exact ⟨r, hr, by rw [hf]; rfl⟩

/-- The opcode byte of an instruction that stands at `pc`. -/
theorem memRead_pc_of_bytesAt {s : State} {i : Instr} (h : s.BytesAt (encode i)) :
    memRead s.mem s.pc = .ok i.form.opcode :=
  ((bytesAt_cons s _ _).1 (encode_eq i ▸ h)).1

theorem memRead_pc_ne_opcHalt {s : State} {i : Instr} (h : s.BytesAt (encode i)) (hi : i ≠ .halt) :
    memRead s.mem s.pc ≠ .ok opcHalt := by
  rw [memRead_pc_of_bytesAt h]
  exact fun e => hi (eq_halt_of_opcode (Reply.ok.inj e))

/-! ## The outcome of a step -/

/-- What a step that raises a fault leaves: nothing but `run`, the record and at most two fetched operand bytes of
`pc` changed, and no HALT byte at its opcode address (R70, R88, R89). -/
structure FaultedFrom (s t : State) : Prop where
  run : t.run = .faulted
  regs : t.regs = s.regs
  sp : t.sp = s.sp
  mem : t.mem = s.mem
  pc : ∃ n ≤ 2, t.pc = s.pc + BitVec.ofNat 16 n
  notHalt : memRead s.mem s.pc ≠ .ok opcHalt

theorem faultedFrom_raise {s : State} {n : Nat} (hn : n ≤ 2) (hop : memRead s.mem s.pc ≠ .ok opcHalt)
    (k : FaultKind) (a : Word) (b : Option Byte) : FaultedFrom s ((s.consume n).raise k a b) where
  run := rfl
  regs := consume_regs s n
  sp := consume_sp s n
  mem := consume_mem s n
  pc := ⟨n, hn, consume_pc s n⟩
  notHalt := hop

/-- An opcode byte whose row asks for operand bytes is not the HALT byte. -/
theorem ne_opcHalt_of_operandBytes {op : Byte} {r : FormRow} (hr : decodeOpcode op = some r)
    (hn : 1 ≤ r.format.operandBytes) : op ≠ opcHalt := by
  rintro rfl
  obtain ⟨r', hr', h0⟩ := decodeOpcode_opcHalt
  cases hr.symm.trans hr'
  omega

/-- A step from Running ends in Halted on the HALT byte, completes an instruction that stands at `pc`, or faults. -/
theorem step_outcome {s t : State} (hrun : s.run = .running) (h : step s = .next t) :
    (memRead s.mem s.pc = .ok opcHalt ∧ t = { s with run := .halted }) ∨
    (∃ i, s.BytesAt (encode i) ∧ Completed i s t) ∨ FaultedFrom s t := by
  rcases step_cases hrun with ⟨hw, e⟩ | ⟨op, hop, hd, e⟩ | ⟨op, r, hop, hr, hn, -, e⟩ |
    ⟨op, r, hop, hr, hn, -, -, e⟩ | ⟨i, hb, e⟩
  case inr.inr.inr.inr =>
    rcases exec_cases i s with ⟨rfl, e'⟩ | ⟨u, e', hu⟩ | ⟨ea, -, hi, e', -⟩ <;>
      cases h.symm.trans (e.trans e')
    · exact .inl ⟨memRead_pc_of_bytesAt hb, rfl⟩
    · exact .inr (.inl ⟨i, hb, hu⟩)
    · exact .inr (.inr (faultedFrom_raise (operandBytes_le _) (memRead_pc_ne_opcHalt hb hi) _ _ _))
  all_goals cases h.symm.trans e; refine .inr (.inr ?_)
  · exact faultedFrom_raise (n := 0) (by decide) (by simp [memRead_outside _ hw]) _ _ _
  · refine faultedFrom_raise (n := 0) (by decide) ?_ _ _ _
    obtain ⟨r, hr, -⟩ := decodeOpcode_opcHalt
    rw [hop, Ne, Reply.ok.injEq]
    rintro rfl
    cases hd.symm.trans hr
  · exact faultedFrom_raise (n := 0) (by decide) (by simpa [hop] using ne_opcHalt_of_operandBytes hr hn) _ _ _
  · exact faultedFrom_raise (n := 1) (by decide)
      (by simpa [hop] using ne_opcHalt_of_operandBytes hr (by omega)) _ _ _

/-- Every step has a next state (R63, R88). -/
theorem step_next (s : State) : ∃ t, step s = .next t := by
  by_cases hrun : s.run = .running
  · rcases step_cases hrun with ⟨-, e⟩ | ⟨_, -, -, e⟩ | ⟨_, _, -, -, -, -, e⟩ | ⟨_, _, -, -, -, -, -, e⟩ | ⟨i, -, e⟩
    case inr.inr.inr.inr => exact e ▸ exec_next i s
    all_goals exact ⟨_, e⟩
  · exact ⟨s, step_stopped hrun⟩

/-- A stopped step leaves the state it found (R63). -/
theorem eq_of_step_stopped {s t : State} (hrun : s.run ≠ .running) (h : step s = .next t) : t = s := by
  cases (step_stopped hrun).symm.trans h
  rfl

end Sys2Proof.Machine
end

section
/-! PROOFS. Every run ends, and in one way: a step that stays in Running starts inside the window and moves `pc` up,
and the window has `SIZE` addresses (70_reset_and_hazards.md R105). -/
namespace Sys2Proof.Machine

/-- A completed instruction moves `pc` up, with no wrap-around from inside the window (R69, R71). -/
theorem Completed.pc_lt {i : Instr} {s t : State} (h : Completed i s t) (hw : InWindow s.pc) :
    s.pc.toNat < t.pc.toNat := by
  have hlen : 1 ≤ i.length ∧ i.length ≤ 3 := by
    have := operandBytes_le i.form.format
    unfold Instr.length Format.length
    omega
  have hpc := (inWindow_iff.1 hw).2
  rw [h.pc, BitVec.toNat_add, BitVec.toNat_ofNat]
  omega

/-- A step that stays in Running starts inside the window and moves `pc` up. -/
theorem step_running_advances {s t : State} (hrun : s.run = .running) (h : step s = .next t)
    (ht : t.run = .running) : InWindow s.pc ∧ s.pc.toNat < t.pc.toNat := by
  rcases step_outcome hrun h with ⟨-, rfl⟩ | ⟨i, hb, hc⟩ | hf
  · cases ht
  · have hw := (memRead_eq_ok.1 (memRead_pc_of_bytesAt hb)).1
    exact ⟨hw, hc.pc_lt hw⟩
  · cases hf.run.symm.trans ht

/-! ## `executeUpTo` -/

theorem executeUpTo_stopped {s : State} (h : s.run ≠ .running) (n : Nat) : executeUpTo n s = .next s := by
  cases n with
  | zero => rfl
  | succ n =>
    cases hr : s.run with
    | running => exact absurd hr h
    | halted => rw [executeUpTo, hr]
    | faulted => rw [executeUpTo, hr]

theorem executeUpTo_succ_running {s t : State} (hrun : s.run = .running) (h : step s = .next t) (n : Nat) :
    executeUpTo (n + 1) s = executeUpTo n t := by
  rw [executeUpTo, hrun, h]

/-- The run from `s` is stopped after at most `n` steps. -/
def State.StopsWithin (s : State) (n : Nat) : Prop := ∃ t, executeUpTo n s = .next t ∧ t.run ≠ .running

theorem stopsWithin_of_stopped {s : State} (h : s.run ≠ .running) (n : Nat) : s.StopsWithin n :=
  ⟨s, executeUpTo_stopped h n, h⟩

/-- One more step is enough where every state further up stops. -/
theorem stopsWithin_succ {s : State} {n : Nat}
    (hup : ∀ t : State, InWindow s.pc → s.pc.toNat < t.pc.toNat → t.StopsWithin n) : s.StopsWithin (n + 1) := by
  by_cases hrun : s.run = .running
  · obtain ⟨t, ht⟩ := step_next s
    have hstop : t.StopsWithin n := by
      by_cases htr : t.run = .running
      · obtain ⟨hw, hlt⟩ := step_running_advances hrun ht htr
        exact hup t hw hlt
      · exact stopsWithin_of_stopped htr n
    rwa [State.StopsWithin, executeUpTo_succ_running hrun ht]
  · exact stopsWithin_of_stopped hrun _

/-- Where at most `n` window addresses lie at and above `pc`, the run stops within `n + 1` steps. -/
theorem stopsWithin_of_remaining {n : Nat} {s : State} (h : InWindow s.pc → 0x2800 ≤ s.pc.toNat + n) :
    s.StopsWithin (n + 1) := by
  induction n generalizing s with
  | zero =>
    refine stopsWithin_succ fun t hw _ => ?_
    have := inWindow_iff.1 hw
    have := h hw
    omega
  | succ n ih =>
    refine stopsWithin_succ fun t hw hlt => ih fun _ => ?_
    have := h hw
    omega

/-- No run is longer than `SIZE + 1` steps, from whatever state (R105). -/
theorem stopsWithin_size_succ (s : State) : s.StopsWithin (Config.size + 1) := by
  refine stopsWithin_of_remaining fun hw => ?_
  have := (inWindow_iff.1 hw).1
  unfold Config.size
  omega

/-- A run that has stopped gives the same end under any larger limit (R91, R104). -/
theorem executeUpTo_add_of_stopped {n : Nat} {s t : State} (h : executeUpTo n s = .next t) (ht : t.run ≠ .running)
    (k : Nat) : executeUpTo (n + k) s = .next t := by
  induction n generalizing s with
  | zero =>
    cases h
    exact executeUpTo_stopped ht _
  | succ n ih =>
    by_cases hrun : s.run = .running
    · obtain ⟨u, hu⟩ := step_next s
      rw [executeUpTo_succ_running hrun hu] at h
      rw [Nat.add_right_comm, executeUpTo_succ_running hrun hu]
      exact ih h
    · rwa [executeUpTo_stopped hrun] at h ⊢

/-- A run has one end. -/
theorem stopped_end_unique {s t u : State} {n m : Nat} (ht : executeUpTo n s = .next t) (htr : t.run ≠ .running)
    (hu : executeUpTo m s = .next u) (hur : u.run ≠ .running) : t = u := by
  have e := executeUpTo_add_of_stopped ht htr m
  rw [Nat.add_comm, executeUpTo_add_of_stopped hu hur n] at e
  cases e
  rfl

/-- Settles O48: the run ends because each step that stays in Running uses up addresses of the window, and in one way
because a stopped block stays as it is. -/
theorem everyRunEndsOneWay : Obligations.EveryRunEndsOneWay := by
  intro s
  constructor
  · obtain ⟨t, ht, hstop⟩ := stopsWithin_size_succ s
    cases hr : t.run with
    | running => exact absurd hr hstop
    | halted => exact .inl ⟨_, t, ht, hr⟩
    | faulted => exact .inr ⟨_, t, ht, hr⟩
  · rintro ⟨⟨n, t, ht, htr⟩, ⟨m, u, hu, hur⟩⟩
    cases stopped_end_unique ht (by simp [htr]) hu (by simp [hur])
    cases htr.symm.trans hur

end Sys2Proof.Machine
end

section
/-! PROOFS. The run state's transitions, and who writes the registers and `sp` (10_state.md R18, R21, R23): each is
read off the outcome of a step. -/
namespace Sys2Proof.Machine

/-- Settles O31: by the outcome of the step, only HALT's ends in Halted, and only it starts on the HALT byte. -/
theorem runStateTransitions : Obligations.RunStateTransitions := by
  intro s t h
  have stopped (hs : s.run ≠ .running) : t.run = s.run := by rw [eq_of_step_stopped hs h]
  refine ⟨fun hs => (stopped (by simp [hs])).trans hs, fun hs => (stopped (by simp [hs])).trans hs, fun hrun => ?_⟩
  rcases step_outcome hrun h with ⟨hop, rfl⟩ | ⟨i, hb, hc⟩ | hf
  · exact iff_of_true rfl hop
  · exact iff_of_false (by simp [hc.run, hrun]) (memRead_pc_ne_opcHalt hb hc.notHalt)
  · exact iff_of_false (by simp [hf.run]) hf.notHalt

/-- A step that changes a register, `sp` or memory completed an instruction that stands at `pc` (R63, R65, R89). -/
theorem completed_of_changed {s t : State} (h : step s = .next t)
    (hne : ¬ (t.regs = s.regs ∧ t.sp = s.sp ∧ t.mem = s.mem)) : ∃ i, s.BytesAt (encode i) ∧ Completed i s t := by
  by_cases hrun : s.run = .running
  · rcases step_outcome hrun h with ⟨-, rfl⟩ | hc | hf
    · exact absurd ⟨rfl, rfl, rfl⟩ hne
    · exact hc
    · exact absurd ⟨hf.regs, hf.sp, hf.mem⟩ hne
  · cases eq_of_step_stopped hrun h
    exact absurd ⟨rfl, rfl, rfl⟩ hne

/-- Settles O32: a changed register was changed by a completed instruction, which keeps all but its own. -/
theorem onlyListedInstructionsWriteARegister : Obligations.OnlyListedInstructionsWriteARegister := by
  intro s t r h hne
  obtain ⟨i, hb, hc⟩ := completed_of_changed h fun ⟨hregs, _, _⟩ => hne (readReg_of_regs hregs r)
  exact ⟨i, hb, Decidable.not_not.1 fun hr => hne (hc.regs r hr)⟩

/-- Settles O33: a changed `sp` was changed by a completed instruction, and of those only `LXI SP` writes it. -/
theorem onlyLxiSpWritesStackPointer : Obligations.OnlyLxiSpWritesStackPointer := by
  intro s t h hne
  obtain ⟨i, hb, hc⟩ := completed_of_changed h fun ⟨_, hsp, _⟩ => hne hsp
  rcases hc.sp with hs | ⟨w, rfl, hw⟩
  · exact absurd hs hne
  · exact ⟨w, hb, hw⟩

end Sys2Proof.Machine
end

section
/-! PROOFS. No instruction reads `sp` or the fault record (10_state.md R22, R23, R25): replacing both commutes with
every operation of a step, but for `LXI SP`, which writes its own `sp` whatever stood there. -/
namespace Sys2Proof.Machine

/-- The state with another `sp` and, unless it is Faulted and so has just been given its record, another record. -/
def State.rehide (w : Word) (f : FaultRecord) (s : State) : State :=
  { s with sp := w
           fault := match s.run with
             | .faulted => s.fault
             | .running => f
             | .halted => f }

variable {w : Word} {f : FaultRecord} {s : State}

@[simp] theorem rehide_regs : (s.rehide w f).regs = s.regs := rfl
@[simp] theorem rehide_pc : (s.rehide w f).pc = s.pc := rfl
@[simp] theorem rehide_run : (s.rehide w f).run = s.run := rfl
@[simp] theorem rehide_mem : (s.rehide w f).mem = s.mem := rfl

theorem rehide_fault_of_faulted (h : s.run = .faulted) : (s.rehide w f).fault = s.fault := by
  simp [State.rehide, h]

theorem rehide_fault_of_not_faulted (h : s.run ≠ .faulted) : (s.rehide w f).fault = f := by
  cases hr : s.run with
  | faulted => exact absurd hr h
  | running => simp [State.rehide, hr]
  | halted => simp [State.rehide, hr]

theorem rehide_eq_of_not_faulted (h : s.run ≠ .faulted) : s.rehide w f = { s with sp := w, fault := f } := by
  change { s with sp := w, fault := (s.rehide w f).fault } = _
  rw [rehide_fault_of_not_faulted h]

theorem consume_rehide (n : Nat) : (s.rehide w f).consume n = (s.consume n).rehide w f := by
  induction n generalizing s with
  | zero => rfl
  | succ n ih => exact ih (s := s.incPc)

/-! ## Fetching -/

/-- A fetch's outcome with its state mapped. -/
def Fetched.mapState {α : Type} (g : State → State) : Fetched α → Fetched α
  | .ok v s => .ok v (g s)
  | .raised s => .raised (g s)

theorem fetchNext_rehide (op : Byte) : fetchNext op (s.rehide w f) = (fetchNext op s).mapState (·.rehide w f) := by
  rcases fetchNext_cases op s with ⟨v, hv, e⟩ | ⟨hw, e⟩ <;> rw [e]
  · exact fetchNext_inWindow hv
  · exact fetchNext_outside hw

theorem fetchOperands_rehide (op : Byte) (n : Nat) :
    fetchOperands op n (s.rehide w f) = (fetchOperands op n s).mapState (·.rehide w f) := by
  match n with
  | 0 => rfl
  | 1 =>
    simp only [fetchOperands, fetchNext_rehide]
    cases fetchNext op s <;> rfl
  | n + 2 =>
    simp only [fetchOperands, fetchNext_rehide]
    cases fetchNext op s with
    | raised t => rfl
    | ok low t =>
      simp only [Fetched.mapState, fetchNext_rehide]
      cases fetchNext op t <;> rfl

theorem fetchInstr_rehide : fetchInstr (s.rehide w f) = (fetchInstr s).mapState (·.rehide w f) := by
  unfold fetchInstr fetchOpcode
  rw [rehide_mem, rehide_pc]
  cases memRead s.mem s.pc with
  | outOfRange => rfl
  | ok op =>
    cases hr : decodeOpcode op with
    | none => simp only [hr]; rfl
    | some r =>
      simp only [hr, fetchOperands_rehide]
      cases fetchOperands op r.format.operandBytes s with
      | raised t => rfl
      | ok b t =>
        simp only [Fetched.mapState]
        cases r.instr? op b.1 b.2 <;> rfl

/-! ## Bodies -/

theorem readSource_rehide (src : Source) : (s.rehide w f).readSource src = s.readSource src := by
  cases src <;> rfl

theorem moveByte_rehide {op : Byte} {dst : Dest} {src : Source} {t : State} (h : moveByte op dst src s = .next t) :
    moveByte op dst src (s.rehide w f) = .next (t.rehide w f) := by
  unfold moveByte at h ⊢
  rw [readSource_rehide]
  cases hr : s.readSource src with
  | outOfRange => simp only [hr] at h; cases h; rfl
  | ok v =>
    simp only [hr] at h ⊢
    cases dst with
    | register r => cases h; rfl
    | memory ea =>
      simp only [State.writeDest, rehide_mem] at h ⊢
      cases hw : memWrite s.mem ea v <;> simp only [hw] at h ⊢ <;> cases h <;> rfl

/-- The body of a form that moves a byte, its operand bytes consumed. -/
theorem moveByte_consume_rehide {op : Byte} {dst : Dest} {src : Source} {n : Nat} {t : State}
    (h : moveByte op dst src (s.consume n) = .next t) :
    moveByte op dst src ((s.rehide w f).consume n) = .next (t.rehide w f) := by
  rw [consume_rehide]
  exact moveByte_rehide h

theorem exec_rehide {t : State} (i : Instr) (hrun : s.run = .running) (h : exec i s = .next t) :
    ∃ w', exec i (s.rehide w f) = .next (t.rehide w' f) := by
  induction i using instr_cases with
  | movRR dst src => rw [exec_movRR] at h ⊢; exact ⟨w, moveByte_rehide h⟩
  | movRM dst => rw [exec_movRM] at h ⊢; exact ⟨w, moveByte_rehide h⟩
  | movMR src => rw [exec_movMR] at h ⊢; exact ⟨w, moveByte_rehide h⟩
  | mviR dst v => rw [exec_mviR] at h ⊢; exact ⟨w, moveByte_consume_rehide h⟩
  | mviM v => rw [exec_mviM] at h ⊢; exact ⟨w, moveByte_consume_rehide h⟩
  | lxiRp p data16 =>
    rw [exec_lxiRp] at h ⊢
    cases h
    refine ⟨w, ?_⟩
    rw [lxiRp, consume_rehide]
    rfl
  | lxiSP data16 => cases h; exact ⟨data16, rfl⟩
  | lda addr16 => rw [exec_lda] at h ⊢; exact ⟨w, moveByte_consume_rehide h⟩
  | sta addr16 => rw [exec_sta] at h ⊢; exact ⟨w, moveByte_consume_rehide h⟩
  | halt =>
    cases h
    refine ⟨w, ?_⟩
    rw [rehide_eq_of_not_faulted (by simp [hrun])]
    rfl

/-- A step of a running block with another `sp` and record ends alike, up to the two. -/
theorem step_rehide {t : State} (hrun : s.run = .running) (h : step s = .next t) :
    ∃ w', step (s.rehide w f) = .next (t.rehide w' f) := by
  unfold step at h ⊢
  rw [hrun] at h
  rw [rehide_run, hrun, fetchInstr_rehide]
  cases hf : fetchInstr s with
  | raised u =>
    simp only [hf] at h
    cases h
    exact ⟨w, rfl⟩
  | ok i u =>
    simp only [hf] at h
    exact exec_rehide i hrun h

/-- A step of a running block that does not fault keeps the record (R22). -/
theorem step_fault_of_not_faulted {t : State} (hrun : s.run = .running) (h : step s = .next t)
    (ht : t.run ≠ .faulted) : t.fault = s.fault := by
  rcases step_outcome hrun h with ⟨-, rfl⟩ | ⟨i, -, hc⟩ | hx
  · rfl
  · exact hc.fault
  · exact absurd hx.run ht

/-- Settles O35: from Running the two steps commute with the replacement of `sp` and the record, and a stopped step
does nothing. -/
theorem stackPointerAndFaultRecordAreNotRead : Obligations.StackPointerAndFaultRecordAreNotRead := by
  intro s t w f h
  by_cases hrun : s.run = .running
  · obtain ⟨w', hu⟩ := step_rehide (w := w) (f := f) hrun h
    rw [rehide_eq_of_not_faulted (by simp [hrun])] at hu
    refine ⟨_, hu, rfl, rfl, rfl, rfl, fun _ => rehide_fault_of_faulted, fun hn => ?_⟩
    have ht : t.run ≠ .faulted := fun ht => hn ⟨hrun, ht⟩
    exact ⟨rehide_fault_of_not_faulted ht, step_fault_of_not_faulted hrun h ht⟩
  · cases eq_of_step_stopped hrun h
    exact ⟨_, step_stopped hrun, rfl, rfl, rfl, rfl, fun hs => absurd hs hrun, fun _ => ⟨rfl, rfl⟩⟩

end Sys2Proof.Machine
end

section
/-! PROOFS. The register file's two ports (10_state.md R14 to R16). -/
namespace Sys2Proof.Machine

variable (s : State)

@[simp] theorem readPort_code (r : Reg) : s.readPort r.code = some (s.readReg r) := by simp [State.readPort]

@[simp] theorem writePort_code (r : Reg) (v : Byte) : s.writePort r.code v = some (s.writeReg r v) := by
  simp [State.writePort]

@[simp] theorem readPort_codeM : s.readPort codeM = none := by simp [State.readPort, ofCode_eq_none.2]

@[simp] theorem writePort_codeM (v : Byte) : s.writePort codeM v = none := by
  simp [State.writePort, ofCode_eq_none.2]

/-- A register write shows at no other code of the read port (R16). -/
theorem readPort_writeReg_of_ne {r : Reg} {code : BitVec 3} (v : Byte) (h : code ≠ r.code) :
    (s.writeReg r v).readPort code = s.readPort code := by
  by_cases hM : code = codeM
  · simp [hM]
  · obtain ⟨q, -, rfl⟩ := ofCode_of_ne hM
    have hq : q ≠ r := fun e => h (e ▸ rfl)
    simp [readReg_writeReg, hq]

/-- Settles O40: each code is some register's but `110`, which the resolver takes for the byte at `cat(H, L)`. -/
theorem registerCodesSelectAsTabled : Obligations.RegisterCodesSelectAsTabled := fun s =>
  ⟨readPort_code s .b, readPort_code s .c, readPort_code s .d, readPort_code s .e, readPort_code s .h,
    readPort_code s .l, readPort_codeM s, readPort_code s .a, rfl, rfl⟩

/-- Settles O42: a code other than `110` is a register's, and its port write is that register's write. -/
theorem registerPortsWriteOneRegister : Obligations.RegisterPortsWriteOneRegister := by
  refine fun s code v => ⟨fun hne => ?_, writePort_codeM s v, readPort_codeM s⟩
  obtain ⟨r, -, rfl⟩ := ofCode_of_ne hne
  refine ⟨s.writeReg r v, writePort_code s r v, ?_, fun _ ho => readPort_writeReg_of_ne s v ho,
    rfl, rfl, rfl, rfl, rfl⟩
  simp [readReg_writeReg]

end Sys2Proof.Machine
end

section
/-! PROOFS. The bus gate, what reset leaves in the window, and who writes memory (20_memory.md R33 to R35, R43, R47). -/
namespace Sys2Proof.Machine

/-- Settles O43: the two bounds are the gate's check. -/
theorem busReadAnswersOnlyInWindow : Obligations.BusReadAnswersOnlyInWindow := fun m _ =>
  ⟨fun h => memRead_inWindow m (inWindow_iff.2 h), fun h => memRead_outside m (mt inWindow_iff.1 h)⟩

/-- Settles O44: an accepted write reads back at its address and shows at no other. -/
theorem busWriteReplacesOneByte : Obligations.BusWriteReplacesOneByte := by
  refine fun m addr v => ⟨fun h => ?_, fun h => memWrite_outside m v (mt inWindow_iff.1 h)⟩
  have hwr := memWrite_inWindow m v (inWindow_iff.2 h)
  exact ⟨_, hwr, (memRead_memWrite hwr addr).trans (if_pos rfl),
    fun a ha => (memRead_memWrite hwr a).trans (if_neg ha)⟩

/-- Settles O38: reset leaves no cell listed, and an unlisted window address holds zero. -/
theorem resetZeroFillsWindow : Obligations.ResetZeroFillsWindow := fun _ =>
  ⟨fun h => memRead_inWindow State.reset.mem h, fun h => memRead_outside State.reset.mem h⟩

/-- Settles O34: a changed byte was changed by a completed instruction, and the one accepted write of a completed
instruction is at its store address. -/
theorem onlyStoresChangeMemory : Obligations.OnlyStoresChangeMemory := by
  intro s t a h hne
  obtain ⟨i, hb, hc⟩ := completed_of_changed h fun ⟨_, _, hmem⟩ => hne (by rw [hmem])
  rcases hc.mem with ⟨-, hmem⟩ | ⟨b, v, hst, hwr, -⟩
  · exact absurd (by rw [hmem]) hne
  · have hab : a = b := Decidable.not_not.1 fun hab => hne ((memRead_memWrite hwr a).trans (if_neg hab))
    exact ⟨i, hb, hab ▸ hst, hab ▸ (memWrite_eq_ok.1 hwr).1⟩

end Sys2Proof.Machine
end

section
/-! PROOFS. An instruction whose bytes stand at `pc` is the one the step fetches and runs (30_encoding.md R55, R57,
40_cycle.md R66). -/
namespace Sys2Proof.Machine

/-- A form has as many operand bytes as its format asks for (R49). -/
theorem operands_length (f : Form) : f.operands.length = f.format.operandBytes := by cases f <;> rfl

/-- An instruction's opcode byte selects the row of its format, and that row with the instruction's operand bytes gives
the instruction back (R55, R60). -/
theorem decodeOpcode_opcode_instr (i : Instr) :
    ∃ r, decodeOpcode i.form.opcode = some r ∧ r.format = i.form.format ∧
      r.instr? i.form.opcode (i.form.operands.getD 0 0) (i.form.operands.getD 1 0) = some i := by
  have imm16 (f : Word → Instr) (w : Word) : some (f (cat (highByte w) (lowByte w))) = some (f w) := by
    rw [cat_highByte_lowByte]
  induction i using instr_cases with
  | movRR dst src => cases dst <;> cases src <;> exact ⟨_, rfl, rfl, rfl⟩
  | movRM dst => cases dst <;> exact ⟨_, rfl, rfl, rfl⟩
  | movMR src => cases src <;> exact ⟨_, rfl, rfl, rfl⟩
  | mviR dst v => simp only [form_mviR, Form.opcode]; cases dst <;> exact ⟨_, rfl, rfl, rfl⟩
  | mviM v => simp only [form_mviM, Form.opcode]; exact ⟨_, rfl, rfl, rfl⟩
  | lxiRp p w => simp only [form_lxiRp, Form.opcode]; cases p <;> exact ⟨_, rfl, rfl, imm16 _ w⟩
  | lxiSP w => simp only [form_lxiSP, Form.opcode]; exact ⟨_, rfl, rfl, imm16 _ w⟩
  | lda w => simp only [form_lda, Form.opcode]; exact ⟨_, rfl, rfl, imm16 _ w⟩
  | sta w => simp only [form_sta, Form.opcode]; exact ⟨_, rfl, rfl, imm16 _ w⟩
  | halt => exact ⟨_, rfl, rfl, rfl⟩

/-- Operand bytes that stand after `pc` are fetched, the first as the low byte (R54, R67). -/
theorem fetchOperands_of_bytesAt (op : Byte) {s : State} {bs : List Byte} (hn : bs.length ≤ 2)
    (h : s.incPc.BytesAt bs) :
    fetchOperands op bs.length s = .ok (bs.getD 0 0, bs.getD 1 0) (s.consume bs.length) := by
  match bs, hn with
  | [], _ => rfl
  | [low], _ =>
    obtain ⟨hlow, -⟩ := (bytesAt_cons _ _ _).1 h
    simp [fetchOperands, fetchNext_inWindow hlow, State.consume]
  | [low, high], _ =>
    obtain ⟨hlow, h⟩ := (bytesAt_cons _ _ _).1 h
    obtain ⟨hhigh, -⟩ := (bytesAt_cons _ _ _).1 h
    simp [fetchOperands, fetchNext_inWindow hlow, fetchNext_inWindow hhigh, State.consume]

/-- The fetch of an instruction whose bytes stand at `pc` answers that instruction (R66). -/
theorem fetchInstr_of_bytesAt {s : State} {i : Instr} (h : s.BytesAt (encode i)) :
    fetchInstr s = .ok i (s.consume i.form.format.operandBytes) := by
  obtain ⟨hop, hops⟩ := (bytesAt_cons s _ _).1 h
  obtain ⟨r, hr, hf, hi⟩ := decodeOpcode_opcode_instr i
  have hfetch := fetchOperands_of_bytesAt i.form.opcode (by rw [operands_length]; exact operandBytes_le _) hops
  rw [operands_length, ← hf] at hfetch
  rw [← hf]
  simp only [fetchInstr, fetchOpcode, hop, hr, hfetch, hi]

theorem fetchInstr_unknown {s : State} {op : Byte} (hop : memRead s.mem s.pc = .ok op)
    (hd : decodeOpcode op = none) : fetchInstr s = .raised (s.raiseUnknownInstruction op) := by
  simp only [fetchInstr, fetchOpcode, hop, hd]

theorem step_of_raised {s t : State} (hrun : s.run = .running) (h : fetchInstr s = .raised t) : step s = .next t := by
  simp only [step, hrun, h]

/-- A step of a running block runs the instruction whose bytes stand at `pc` (R66). -/
theorem step_of_bytesAt {s : State} {i : Instr} (hrun : s.run = .running) (h : s.BytesAt (encode i)) :
    step s = exec i s := by
  simp only [step, hrun, fetchInstr_of_bytesAt h]

end Sys2Proof.Machine
end

section
/-! PROOFS. The bus transactions of a step (20_memory.md R41, R43, R44, 60_exceptions.md R86, R90): one accepted read
for each byte of the instruction, then its data transaction; a rejected one ends the step. -/
namespace Sys2Proof.Machine

/-! ## The transactions of a step -/

/-- The reads of the bytes `bs` at and after `addr`, each answered with its byte. -/
def acceptedReads (addr : Word) (bs : List Byte) : List Transaction :=
  bs.mapIdx fun k v => .read (addr + BitVec.ofNat 16 k) (.ok v)

theorem acceptedReads_nil (addr : Word) : acceptedReads addr [] = [] := rfl

theorem acceptedReads_cons (addr : Word) (v : Byte) (bs : List Byte) :
    acceptedReads addr (v :: bs) = .read addr (.ok v) :: acceptedReads (addr + 1) bs := by
  have hsucc (k : Nat) (w : Byte) : Transaction.read (addr + BitVec.ofNat 16 (k + 1)) (.ok w) =
      .read (addr + 1 + BitVec.ofNat 16 k) (.ok w) := by rw [add_ofNat_succ]
  rw [acceptedReads, List.mapIdx_cons, BitVec.add_zero, funext₂ hsucc]
  rfl

theorem operandTransactions_inWindow {m : Memory} {addr : Word} {v : Byte} (n : Nat) (h : memRead m addr = .ok v) :
    operandTransactions m (n + 1) addr = .read addr (.ok v) :: operandTransactions m n (addr + 1) := by
  rw [operandTransactions, h]

theorem operandTransactions_outside {m : Memory} {addr : Word} (n : Nat) (h : ¬ InWindow addr) :
    operandTransactions m (n + 1) addr = [.read addr .outOfRange] := by
  rw [operandTransactions, memRead_outside m h]

theorem readTransaction_inWindow {s : State} {addr : Word} (h : InWindow addr) :
    s.readTransaction addr = .read addr (.ok (s.mem.byteAt addr.toNat)) := by
  rw [State.readTransaction, memRead_inWindow s.mem h]

theorem readTransaction_outside {s : State} {addr : Word} (h : ¬ InWindow addr) :
    s.readTransaction addr = .read addr .outOfRange := by
  rw [State.readTransaction, memRead_outside s.mem h]

theorem writeTransaction_accepted {s : State} {addr : Word} {v : Byte} {m : Memory}
    (h : memWrite s.mem addr v = .ok m) : s.writeTransaction addr v = .write addr v (.ok ()) := by
  rw [State.writeTransaction, h]

theorem writeTransaction_outside {s : State} {addr : Word} (v : Byte) (h : ¬ InWindow addr) :
    s.writeTransaction addr v = .write addr v .outOfRange := by
  rw [State.writeTransaction, memWrite_outside s.mem v h]

theorem operandTransactions_of_bytesAt {s : State} {bs : List Byte} (h : s.BytesAt bs) :
    operandTransactions s.mem bs.length s.pc = acceptedReads s.pc bs := by
  induction bs generalizing s with
  | nil => rfl
  | cons v bs ih =>
    obtain ⟨hv, hbs⟩ := (bytesAt_cons s v bs).1 h
    rw [List.length_cons, operandTransactions_inWindow _ hv, acceptedReads_cons]
    exact congrArg _ (ih hbs)

theorem busTrace_of_outside {s : State} (hrun : s.run = .running) (hw : ¬ InWindow s.pc) :
    busTrace s = [.read s.pc .outOfRange] := by
  simp only [busTrace, hrun, readTransaction_outside hw, memRead_outside _ hw]

theorem busTrace_of_opcode {s : State} {op : Byte} (hrun : s.run = .running) (hop : memRead s.mem s.pc = .ok op) :
    busTrace s = .read s.pc (.ok op) :: transactionsAfter op s := by
  simp only [busTrace, hrun, State.readTransaction, hop]

/-- An illegal opcode byte is the only one read (R87). -/
theorem busTrace_of_unknown {s : State} {op : Byte} (hrun : s.run = .running) (hop : memRead s.mem s.pc = .ok op)
    (hd : decodeOpcode op = none) : busTrace s = [.read s.pc (.ok op)] := by
  simp only [busTrace_of_opcode hrun hop, transactionsAfter, hd]

/-- The transactions of an instruction whose bytes stand at `pc` (R41). -/
theorem busTrace_of_bytesAt {s : State} {i : Instr} (hrun : s.run = .running) (h : s.BytesAt (encode i)) :
    busTrace s = acceptedReads s.pc (encode i) ++ dataTransactions i s := by
  obtain ⟨hop, hops⟩ := (bytesAt_cons s _ _).1 h
  obtain ⟨r, hr, hf⟩ := decodeOpcode_opcode i
  have hreads := operandTransactions_of_bytesAt hops
  rw [operands_length, ← hf, incPc_mem, incPc_pc] at hreads
  simp only [busTrace_of_opcode hrun hop, transactionsAfter, hr, fetchInstr_of_bytesAt h, hreads, encode_eq,
    acceptedReads_cons, List.cons_append]

/-- Settles O50: the operand reads answer the bytes that stand after `pc`. -/
theorem transactionsAreAsTabled : Obligations.TransactionsAreAsTabled := fun _ _ => busTrace_of_bytesAt

/-- The transactions where an operand fetch raises: bytes read, then the one read that the bus rejects, at the fault's
address (R67, R86, R90). -/
theorem busTrace_of_fetchOperands_raised {op : Byte} {r : FormRow} {s t : State} (hrun : s.run = .running)
    (hop : memRead s.mem s.pc = .ok op) (hr : decodeOpcode op = some r)
    (h : fetchOperands op r.format.operandBytes s = .raised t) (hf : fetchInstr s = .raised t) :
    ∃ bs ea, ¬ InWindow ea ∧ busTrace s = acceptedReads s.pc bs ++ [.read ea .outOfRange] ∧
      ∃ k, t = (s.consume k).raiseOutOfRange ea (some op) := by
  simp only [busTrace_of_opcode hrun hop, transactionsAfter, hr, hf, List.append_nil]
  rcases fetchOperands_raised (operandBytes_le _) h with ⟨hn, hw, ht⟩ | ⟨hn, hw1, hw2, ht⟩
  · refine ⟨[op], s.pc + 1, hw, ?_, 0, ht⟩
    rw [← Nat.sub_add_cancel hn, operandTransactions_outside _ hw]
    simp only [acceptedReads_cons, acceptedReads_nil, List.cons_append, List.nil_append]
  · refine ⟨[op, s.mem.byteAt (s.pc + 1).toNat], s.pc + 1 + 1, hw2, ?_, 1, ht⟩
    rw [hn, operandTransactions_inWindow _ (memRead_inWindow s.mem hw1), operandTransactions_outside _ hw2]
    simp only [acceptedReads_cons, acceptedReads_nil, List.cons_append, List.nil_append]

/-! ## What the transactions tell -/

/-- A read that the bus answered with a byte. -/
def Transaction.IsAcceptedRead (x : Transaction) : Prop := ∃ a v, x = .read a (.ok v)

theorem isAcceptedRead_of_mem {addr : Word} {bs : List Byte} {x : Transaction} (h : x ∈ acceptedReads addr bs) :
    x.IsAcceptedRead := by
  obtain ⟨k, hk, rfl⟩ := List.mem_mapIdx.1 h
  exact ⟨_, _, rfl⟩

theorem isAcceptedRead_readTransaction {s : State} {addr : Word} (h : InWindow addr) :
    (s.readTransaction addr).IsAcceptedRead := ⟨_, _, readTransaction_inWindow h⟩

theorem foldl_applyTo_of_acceptedReads {m : Memory} {xs : List Transaction} (h : ∀ x ∈ xs, x.IsAcceptedRead) :
    xs.foldl (fun m x => x.applyTo m) m = m := by
  induction xs with
  | nil => rfl
  | cons x xs ih =>
    obtain ⟨⟨a, v, rfl⟩, hxs⟩ := List.forall_mem_cons.1 h
    exact ih hxs

/-- A transaction outside the window changes no memory (R35). -/
theorem applyTo_outside {x : Transaction} (m : Memory) (h : ¬ InWindow x.addr) : x.applyTo m = m := by
  cases x with
  | read a reply => rfl
  | write a v reply =>
    have hwr : memWrite m a v = .outOfRange := memWrite_outside m v h
    rw [Transaction.applyTo, hwr]

/-- The state raised the fault OutOfRange (R86). -/
def State.RaisedOutOfRange (t : State) : Prop := t.run = .faulted ∧ t.fault.kind = .outOfRange

/-- The transactions of a step from memory `m` tell the state `t` after it: memory is what the writes made of `m`, and
the last transaction, no other, is rejected exactly where `t` has raised OutOfRange, at its address. -/
def TraceTells (m : Memory) (trace : List Transaction) (t : State) : Prop :=
  t.mem = trace.foldl (fun m x => x.applyTo m) m ∧
  ∃ init last, trace = init ++ [last] ∧ (∀ x ∈ init, x.rejected = false) ∧
    (last.rejected = true ↔ t.RaisedOutOfRange) ∧ (last.rejected = true → t.fault.addr = last.addr)

section
variable {m : Memory} {t : State} {init : List Transaction} {last : Transaction}

/-- After accepted reads, the last transaction alone tells. -/
theorem traceTells_append_last (hinit : ∀ x ∈ init, x.IsAcceptedRead) (hmem : t.mem = last.applyTo m)
    (hrej : last.rejected = true ↔ t.RaisedOutOfRange) (haddr : last.rejected = true → t.fault.addr = last.addr) :
    TraceTells m (init ++ [last]) t := by
  refine ⟨?_, init, last, rfl, fun x hx => ?_, hrej, haddr⟩
  · rw [List.foldl_append, foldl_applyTo_of_acceptedReads hinit]
    exact hmem
  · obtain ⟨a, v, rfl⟩ := hinit x hx
    rfl

theorem traceTells_of_accepted (hinit : ∀ x ∈ init, x.IsAcceptedRead) (hmem : t.mem = last.applyTo m)
    (hlast : last.rejected = false) (ht : ¬ t.RaisedOutOfRange) : TraceTells m (init ++ [last]) t :=
  traceTells_append_last hinit hmem (iff_of_false (by simp [hlast]) ht) fun h => by simp [hlast] at h

/-- Accepted reads alone tell a step that writes nothing and raises no OutOfRange. -/
theorem traceTells_of_acceptedReads {trace : List Transaction} (hne : trace ≠ [])
    (h : ∀ x ∈ trace, x.IsAcceptedRead) (hmem : t.mem = m) (ht : ¬ t.RaisedOutOfRange) : TraceTells m trace t := by
  obtain ⟨init, last, rfl⟩ := (List.eq_nil_or_concat' trace).resolve_left hne
  obtain ⟨hinit, hlast⟩ := List.forall_mem_append.1 h
  obtain ⟨a, v, rfl⟩ := hlast _ (List.mem_singleton_self _)
  exact traceTells_of_accepted hinit hmem rfl ht

/-- A rejected transaction after accepted reads tells the OutOfRange raised at its address with nothing written. -/
theorem traceTells_of_rejected {u : State} (op : Option Byte) (hinit : ∀ x ∈ init, x.IsAcceptedRead)
    (hw : ¬ InWindow last.addr) (hrej : last.rejected = true) (hmem : u.mem = m) :
    TraceTells m (init ++ [last]) (u.raiseOutOfRange last.addr op) :=
  traceTells_append_last hinit (hmem.trans (applyTo_outside m hw).symm) (iff_of_true hrej ⟨rfl, rfl⟩) fun _ => rfl

end

theorem Completed.not_raisedOutOfRange {i : Instr} {s t : State} (h : Completed i s t) (hrun : s.run = .running) :
    ¬ t.RaisedOutOfRange := fun ⟨hf, _⟩ => by simp [h.run, hrun] at hf

/-- The transactions of a completed instruction tell its one write, if it has one (R41, R43). -/
theorem Completed.traceTells {i : Instr} {s t : State} (h : Completed i s t) (hrun : s.run = .running) (addr : Word) :
    TraceTells s.mem (acceptedReads addr (encode i) ++ dataTransactions i s) t := by
  rcases h.mem with ⟨hst, hmem⟩ | ⟨a, v, -, hwr, hd⟩
  · refine traceTells_of_acceptedReads (by simp [encode_eq, acceptedReads_cons]) ?_ hmem (h.not_raisedOutOfRange hrun)
    refine List.forall_mem_append.2 ⟨fun _ => isAcceptedRead_of_mem, fun x hx => ?_⟩
    obtain ⟨a, hw, rfl⟩ := h.reads hst x hx
    exact isAcceptedRead_readTransaction hw
  · rw [hd, writeTransaction_accepted hwr]
    refine traceTells_of_accepted (fun _ => isAcceptedRead_of_mem) ?_ rfl (h.not_raisedOutOfRange hrun)
    rw [Transaction.applyTo, hwr]

/-- The transactions of an instruction's body tell its end: HALT, completed, or faulted at the data access. -/
theorem exec_traceTells {i : Instr} {s t : State} (hrun : s.run = .running) (h : exec i s = .next t) (addr : Word) :
    TraceTells s.mem (acceptedReads addr (encode i) ++ dataTransactions i s) t := by
  rcases exec_cases i s with ⟨rfl, e⟩ | ⟨u, e, hc⟩ | ⟨ea, hw, -, e, hd⟩ <;> cases h.symm.trans e
  · exact traceTells_of_acceptedReads (t := { s with run := .halted }) (by simp [encode_eq, acceptedReads_cons])
      (List.forall_mem_append.2 ⟨fun _ => isAcceptedRead_of_mem, fun _ hx => nomatch hx⟩) rfl
      (fun ⟨hf, _⟩ => nomatch hf)
  · exact hc.traceTells hrun addr
  · have hmem : (s.consume i.form.format.operandBytes).mem = s.mem := consume_mem _ _
    rcases hd with hd | ⟨v, hd⟩ <;> rw [hd]
    · rw [readTransaction_outside hw]
      exact traceTells_of_rejected _ (fun _ => isAcceptedRead_of_mem) hw rfl hmem
    · rw [writeTransaction_outside v hw]
      exact traceTells_of_rejected _ (fun _ => isAcceptedRead_of_mem) hw rfl hmem

/-- The transactions of every step of a running block tell its end, in the order of R90. -/
theorem step_traceTells {s t : State} (hrun : s.run = .running) (h : step s = .next t) :
    TraceTells s.mem (busTrace s) t := by
  rcases fetchInstr_cases s with ⟨hw, e⟩ | ⟨op, hop, hd, e⟩ | ⟨op, r, u, hop, hr, hf, e⟩ | ⟨i, hb, -⟩
  · cases h.symm.trans (step_of_raised hrun e)
    rw [busTrace_of_outside hrun hw]
    exact traceTells_of_rejected (init := []) none (fun _ hx => nomatch hx) hw rfl rfl
  · cases h.symm.trans (step_of_raised hrun e)
    rw [busTrace_of_unknown hrun hop hd]
    refine traceTells_of_acceptedReads (by simp) ?_ rfl fun ⟨_, hk⟩ => nomatch hk
    exact List.forall_mem_singleton.2 ⟨_, _, rfl⟩
  · cases h.symm.trans (step_of_raised hrun e)
    obtain ⟨bs, ea, hw, htr, k, rfl⟩ := busTrace_of_fetchOperands_raised hrun hop hr hf e
    rw [htr]
    exact traceTells_of_rejected _ (fun _ => isAcceptedRead_of_mem) hw rfl (consume_mem s k)
  · rw [busTrace_of_bytesAt hrun hb]
    exact exec_traceTells hrun ((step_of_bytesAt hrun hb).symm.trans h) s.pc

/-- Settles O51: by the outcome of the fetch and of the body, every transaction but the last is an accepted read. -/
theorem transactionsTellMemoryAndFault : Obligations.TransactionsTellMemoryAndFault := fun _ _ => step_traceTells

end Sys2Proof.Machine
end

section
/-! PROOFS. The fetch sees what the step before it stored (20_memory.md R46, 70_reset_and_hazards.md R107). -/
namespace Sys2Proof.Machine

/-- A byte of R58's list selects no row of the pattern table. -/
theorem decodeOpcode_of_illegal {op : Byte} (h : illegalOpcode op = true) : decodeOpcode op = none := by
  have all : ∀ op : Byte, illegalOpcode op = true → (decodeOpcode op).isNone = true := by decide
  exact Option.isNone_iff_eq_none.1 (all op h)

/-- A step on an illegal opcode byte raises UnknownInstruction (R87). -/
theorem step_of_unknown {s : State} {op : Byte} (hrun : s.run = .running) (hop : memRead s.mem s.pc = .ok op)
    (hd : decodeOpcode op = none) : step s = .next (s.raiseUnknownInstruction op) :=
  step_of_raised hrun (fetchInstr_unknown hop hd)

/-- A step on the HALT byte halts there (R65). -/
theorem step_of_opcHalt {s : State} (hrun : s.run = .running) (hop : memRead s.mem s.pc = .ok opcHalt) :
    step s = .next { s with run := .halted } :=
  step_of_bytesAt (i := .halt) hrun ((bytesAt_cons _ _ _).2 ⟨hop, bytesAt_nil _⟩)

/-- `STA` into the window stores A there and moves past its three bytes (R83). -/
theorem exec_sta_inWindow (s : State) {addr : Word} (hw : InWindow addr) :
    ∃ t, exec (.sta addr) s = .next t ∧ t.run = s.run ∧ t.pc = s.pc + 3 ∧ memRead t.mem addr = .ok s.regs.a := by
  have hwr := memWrite_inWindow s.mem s.regs.a hw
  refine ⟨_, (exec_sta _ _).trans (moveByte_toMemory (s := s.consume 2) (readSource_register _ .a) hwr), rfl, ?_, ?_⟩
  · simp [BitVec.add_assoc]
  · exact (memRead_memWrite hwr _).trans (if_pos rfl)

/-- Settles O55: the byte stored is the byte at the new `pc`, and the next step starts from it. -/
theorem storeIntoNextOpcodeIsFetched : Obligations.StoreIntoNextOpcodeIsFetched := by
  intro s hrun hb hw
  obtain ⟨t, hexec, htrun, hpc, hop⟩ := exec_sta_inWindow s hw
  rw [← hpc] at hop
  refine ⟨t, (step_of_bytesAt hrun hb).trans hexec, hpc, hop, fun ha => ?_, fun hill => ?_⟩
  · exact step_of_opcHalt (htrun.trans hrun) (hop.trans (congrArg _ ha))
  · exact ⟨_, step_of_unknown (htrun.trans hrun) hop (decodeOpcode_of_illegal hill), rfl, by rw [← hpc]; rfl⟩

end Sys2Proof.Machine
end

section
/-! PROOFS. The decoder and the encoder undo each other, and the opcode byte alone fixes the length (30_encoding.md R48,
R49 to R57, R59): what `decode` does with an opcode byte and as many operand bytes as its row asks for, said once and
read in both directions. -/
namespace Sys2Proof.Machine

/-! ## What `decode` does -/

section
variable {op low high : Byte} {r : FormRow} {i : Instr} {ops rest rest' bytes : List Byte}

/-- An opcode byte that selects a row, its operand bytes and whatever follows (R54, R57). -/
theorem decode_of_row (hr : decodeOpcode op = some r) (hlen : ops.length = r.format.operandBytes) :
    decode (op :: (ops ++ rest)) = r.decoded op (ops.getD 0 0) (ops.getD 1 0) rest := by
  have hle := operandBytes_le r.format
  match ops with
  | [] => simp [decode, hr, ← hlen]
  | [low] => simp [decode, hr, ← hlen]
  | [low, high] => simp [decode, hr, ← hlen]
  | _ :: _ :: _ :: _ => simp only [List.length_cons] at hlen; omega

/-- An opcode byte that selects no row is rejected, whatever follows (R58). -/
theorem decode_of_unknown (hd : decodeOpcode op = none) : decode (op :: rest) = .rejected (.unknownInstruction op) := by
  simp only [decode, hd]

theorem decoded_eq_instr :
    r.decoded op low high rest' = .instr i rest ↔ r.instr? op low high = some i ∧ rest' = rest := by
  unfold FormRow.decoded
  cases r.instr? op low high <;> simp

/-- Bytes that decode to an instruction are an opcode byte that selects a row, the operand bytes that row asks for, and
the rest (R57). -/
theorem decode_eq_instr (h : decode bytes = .instr i rest) :
    ∃ op r ops, decodeOpcode op = some r ∧ ops.length = r.format.operandBytes ∧ bytes = op :: (ops ++ rest) ∧
      r.instr? op (ops.getD 0 0) (ops.getD 1 0) = some i := by
  cases bytes with
  | nil => cases h
  | cons op tail =>
    cases hr : decodeOpcode op with
    | none => cases (decode_of_unknown hr).symm.trans h
    | some r =>
      simp only [decode, hr] at h
      split at h
      case h_4 => cases h
      all_goals rename_i hn; obtain ⟨hi, rfl⟩ := decoded_eq_instr.1 h
      · exact ⟨op, r, [], hr, hn.symm, rfl, hi⟩
      · exact ⟨op, r, [_], hr, hn.symm, rfl, hi⟩
      · exact ⟨op, r, [_, _], hr, hn.symm, rfl, hi⟩

/-- As many operand bytes as a format has are the ones it takes. -/
theorem takeOperands_getD {f : Format} (hlen : ops.length = f.operandBytes) :
    f.takeOperands (ops.getD 0 0) (ops.getD 1 0) = ops := by
  have hle := operandBytes_le f
  match ops with
  | [] => simp [Format.takeOperands, ← hlen]
  | [_] => simp [Format.takeOperands, ← hlen]
  | [_, _] => simp [Format.takeOperands, ← hlen]
  | _ :: _ :: _ :: _ => simp only [List.length_cons] at hlen; omega

end

/-! ## The round trip -/

/-- Settles O2: the instruction's own opcode byte selects the row that reads its own operand bytes back. -/
theorem decodeOfEncodeIsIdentity : Obligations.DecodeOfEncodeIsIdentity := by
  intro i rest
  obtain ⟨r, hr, hf, hi⟩ := decodeOpcode_opcode_instr i
  exact (decode_of_row hr (by rw [operands_length, hf])).trans (decoded_eq_instr.2 ⟨hi, rfl⟩)

/-- Settles O3: a row's instruction is encoded as the row's opcode byte and the operand bytes it was read from. -/
theorem decodedBytesAreTheEncoding : Obligations.DecodedBytesAreTheEncoding := by
  intro bytes rest i h
  obtain ⟨op, r, ops, hr, hlen, rfl, hi⟩ := decode_eq_instr h
  obtain ⟨j, hj, -, henc⟩ := decodeOpcode_instr hr (ops.getD 0 0) (ops.getD 1 0)
  cases hi.symm.trans hj
  rw [henc, takeOperands_getD hlen, List.cons_append]

/-- Settles O4: an instruction has as many operand bytes as its format, at most two, and its opcode byte selects a row of
that format. -/
theorem opcodeAloneFixesTheLength : Obligations.OpcodeAloneFixesTheLength := by
  intro i
  have hle := operandBytes_le i.form.format
  have hlen : i.length = 1 + i.form.format.operandBytes := rfl
  obtain ⟨r, hr, hf⟩ := decodeOpcode_opcode i
  refine ⟨?_, by omega, by omega, r, hr, congrArg Format.length hf⟩
  rw [encode_eq, List.length_cons, operands_length, hlen, Nat.add_comm]

/-- Settles O1: each word is its instruction's encoding, so decoding gives the instruction back; `0x00` is on R58's
list. -/
theorem sampleEncodingsDecode : Obligations.SampleEncodingsDecode :=
  ⟨decodeOfEncodeIsIdentity .movAB [], decodeOfEncodeIsIdentity .movCM [], decodeOfEncodeIsIdentity .movMA [],
    decodeOfEncodeIsIdentity (.mviB 0x42) [], decodeOfEncodeIsIdentity (.mviM 0x5A) [],
    decodeOfEncodeIsIdentity (.lxiH 0x1234) [], decodeOfEncodeIsIdentity (.lxiSP 0x27FF) [],
    decodeOfEncodeIsIdentity (.lda 0x2100) [], decodeOfEncodeIsIdentity (.sta 0x2100) [],
    decodeOfEncodeIsIdentity .halt [], decode_of_unknown (decodeOpcode_of_illegal rfl)⟩

/-! ## Operand bytes -/

/-- The bytes after the opcode are those of the form. -/
theorem encode_drop_one (i : Instr) : (encode i).drop 1 = i.form.operands := rfl

/-- A 16-bit operand put together from two bytes is stored as them, the low one first (R53, R54). -/
theorem lowByte_highByte_cat (hi lo : Byte) : [lowByte (cat hi lo), highByte (cat hi lo)] = [lo, hi] := by
  rw [lowByte_cat, highByte_cat]

/-- Settles O41: the two bytes of `cat` do not overlap, and each 16-bit form stores the low half first. -/
theorem operandBytesCombineLowFirst : Obligations.OperandBytesCombineLowFirst := by
  intro hi lo
  refine ⟨?_, fun p => ?_, lowByte_highByte_cat hi lo, lowByte_highByte_cat hi lo, lowByte_highByte_cat hi lo⟩
  · rw [cat_toNat, ← Nat.shiftLeft_add_eq_or_of_lt lo.isLt, Nat.shiftLeft_eq]
  · rw [encode_drop_one, form_lxiRp]
    exact lowByte_highByte_cat hi lo

end Sys2Proof.Machine
end

section
/-! PROOFS. The illegal opcode bytes (30_encoding.md R56, R58) and the step on one of them (60_exceptions.md R87). -/
namespace Sys2Proof.Machine

/-- A byte that selects no row of the pattern table is on R58's list. -/
theorem illegalOpcode_of_decodeOpcode_eq_none {op : Byte} (h : decodeOpcode op = none) : illegalOpcode op = true := by
  have all : ∀ op : Byte, (decodeOpcode op).isNone = true → illegalOpcode op = true := by decide
  exact all op (Option.isNone_iff_eq_none.2 h)

/-- Settles O5: the table and the list agree on each of the 256 bytes. -/
theorem illegalOpcodesAreAsListed : Obligations.IllegalOpcodesAreAsListed := fun _ =>
  ⟨illegalOpcode_of_decodeOpcode_eq_none, decodeOpcode_of_illegal⟩

/-- Settles O6: counting the rows that select each of the 256 bytes. -/
theorem patternRowsAreDisjoint : Obligations.PatternRowsAreDisjoint := by
  unfold Obligations.PatternRowsAreDisjoint
  decide

/-- Settles O13: a listed byte selects no row, so the step raises before any operand is fetched. -/
theorem unknownOpcodeFaults : Obligations.UnknownOpcodeFaults := by
  intro s op hrun hop hill
  have hd := decodeOpcode_of_illegal hill
  exact ⟨step_of_unknown hrun hop hd, busTrace_of_unknown hrun hop hd⟩

end Sys2Proof.Machine
end

section
/-! PROOFS. Every step keeps the invariant (40_cycle.md R65, R71, 60_exceptions.md R86, R87, R89), and `pc` only moves
forward (R69, R71, R74): the bytes of an instruction that completes all lie in the window, so `pc` goes no further than
just past its last address. -/
namespace Sys2Proof.Machine

variable {s t : State} {i : Instr}

/-! ## The program counter -/

/-- The program-counter incrementer below the top of the address space does not wrap around (R71). -/
theorem toNat_add_ofNat {a : Word} {k : Nat} (h : a.toNat + k < 0x10000) :
    (a + BitVec.ofNat 16 k).toNat = a.toNat + k := by
  rw [BitVec.toNat_add, BitVec.toNat_ofNat]
  omega

/-- The program counter's range as numbers (R71). -/
theorem pcInRange_iff : s.pcInRange ↔ 0x2000 ≤ s.pc.toNat ∧ s.pc.toNat ≤ 0x2800 := Iff.rfl

theorem pcInRange_of_inWindow (h : InWindow s.pc) : s.pcInRange := by
  have := inWindow_iff.1 h
  exact pcInRange_iff.2 (by omega)

/-- Past the bytes that stand at `pc`, the address is at most `BASE + SIZE`, with no wrap-around (R48, R71). -/
theorem pc_after_bytesAt {bs : List Byte} (hpc : s.pc.toNat ≤ 0x2800) (h : s.BytesAt bs) :
    (s.pc + BitVec.ofNat 16 bs.length).toNat = s.pc.toNat + bs.length ∧ s.pc.toNat + bs.length ≤ 0x2800 := by
  induction bs generalizing s with
  | nil => simpa using hpc
  | cons v bs ih =>
    obtain ⟨hv, hbs⟩ := (bytesAt_cons s v bs).1 h
    have hw := inWindow_iff.1 (memRead_eq_ok.1 hv).1
    have hnext : s.incPc.pc.toNat = s.pc.toNat + 1 := toNat_add_ofNat (k := 1) (by omega)
    have := ih (by omega) hbs
    rw [List.length_cons, add_ofNat_succ, ← incPc_pc]
    omega

/-- A completed instruction leaves `pc` in its range, its length further up (R69, R71). -/
theorem Completed.pc_toNat (h : Completed i s t) (hb : s.BytesAt (encode i)) :
    t.pc.toNat = s.pc.toNat + i.length ∧ 0x2000 ≤ s.pc.toNat ∧ t.pc.toNat ≤ 0x2800 := by
  have hw := inWindow_iff.1 (memRead_eq_ok.1 (memRead_pc_of_bytesAt hb)).1
  have hafter := pc_after_bytesAt (by omega) hb
  rw [(opcodeAloneFixesTheLength i).1, ← h.pc] at hafter
  omega

/-- The last byte of an instruction that stands at `pc` is in the window (R48). -/
theorem inWindow_lastByte (h : s.BytesAt (encode i)) : InWindow (s.pc + BitVec.ofNat 16 i.form.format.operandBytes) :=
  (memRead_eq_ok.1 (h i.form.format.operandBytes (by simp [encode_eq, operands_length]))).1

/-! ## The invariant of each outcome -/

/-- In Running the invariant asks nothing of the fault record and of the byte at `pc`. -/
theorem inv_of_running (hrun : s.run = .running) (hmem : s.mem.wf = true) (hpc : s.pcInRange) : s.Inv where
  memory := hmem
  pcRange := hpc
  halt := fun h => by cases hrun.symm.trans h
  fault := fun h => by cases hrun.symm.trans h

/-- A block that halts on the HALT byte has the invariant (R65). -/
theorem inv_of_halt (hop : memRead s.mem s.pc = .ok opcHalt) (h : s.Inv) : State.Inv { s with run := .halted } where
  memory := h.memory
  pcRange := h.pcRange
  halt := fun _ => hop
  fault := fun h => nomatch h

/-- A fault whose record is coherent keeps the invariant (R88: nothing else but `run` is written). -/
theorem inv_raise {k : FaultKind} {a : Word} {b : Option Byte} (hmem : s.mem.wf = true) (hpc : s.pcInRange)
    (hfault : (s.raise k a b).faultCoherent) : (s.raise k a b).Inv where
  memory := hmem
  pcRange := hpc
  halt := fun h => nomatch h
  fault := hfault

/-- OutOfRange raised inside a legal instruction, by an operand fetch or by the data access (R86, R89). -/
theorem inv_raiseOutOfRange {op : Byte} {ea : Word} (hmem : s.mem.wf = true) (hpc : InWindow s.pc)
    (hea : ¬ InWindow ea) (hop : (decodeOpcode op).isSome = true) : (s.raiseOutOfRange ea (some op)).Inv :=
  inv_raise hmem (pcInRange_of_inWindow hpc) fun _ => .inl ⟨rfl, hea, .inr ⟨op, rfl, hop, hpc⟩⟩

/-- A completed instruction keeps memory canonical: it makes at most one bus write (R43). -/
theorem Completed.mem_wf (h : Completed i s t) (hmem : s.mem.wf = true) : t.mem.wf = true := by
  rcases h.mem with ⟨-, hm⟩ | ⟨_, _, -, hwr, -⟩
  · rwa [hm]
  · exact wf_memWrite hwr hmem

/-- The body of an instruction that stands at `pc` keeps the invariant. -/
theorem exec_keeps_inv (hinv : s.Inv) (hrun : s.run = .running) (hb : s.BytesAt (encode i)) (h : exec i s = .next t) :
    t.Inv := by
  rcases exec_cases i s with ⟨rfl, e⟩ | ⟨u, e, hc⟩ | ⟨ea, hea, -, e, -⟩ <;> cases h.symm.trans e
  · exact inv_of_halt (memRead_pc_of_bytesAt hb) hinv
  · have hpc := hc.pc_toNat hb
    exact inv_of_running (hc.run.trans hrun) (hc.mem_wf hinv.memory) (pcInRange_iff.2 (by omega))
  · obtain ⟨r, hr, -⟩ := decodeOpcode_opcode i
    exact inv_raiseOutOfRange (by simpa using hinv.memory) (by simpa using inWindow_lastByte hb) hea (by simp [hr])

/-- Settles O36: a stopped step changes nothing, and in Running each of the fetch's faults writes a coherent record, as
does the body's. -/
theorem stepKeepsInvariant : Obligations.StepKeepsInvariant := by
  intro s t hinv h
  by_cases hrun : s.run = .running
  · rcases step_cases hrun with ⟨hw, e⟩ | ⟨op, hop, hd, e⟩ | ⟨op, r, hop, hr, -, hw, e⟩ |
      ⟨op, r, hop, hr, -, hw1, hw2, e⟩ | ⟨i, hb, e⟩
    case inr.inr.inr.inr => exact exec_keeps_inv hinv hrun hb (e.symm.trans h)
    all_goals cases h.symm.trans e
    · exact inv_raise hinv.memory hinv.pcRange fun _ => .inl ⟨rfl, hw, .inl ⟨rfl, rfl⟩⟩
    · exact inv_raise hinv.memory hinv.pcRange fun _ => .inr ⟨rfl, rfl, op, rfl, hop, hd⟩
    · exact inv_raiseOutOfRange hinv.memory (memRead_eq_ok.1 hop).1 hw (by simp [hr])
    · exact inv_raiseOutOfRange hinv.memory hw1 hw2 (by simp [hr])
  · cases eq_of_step_stopped hrun h
    exact hinv

/-- Settles O30: HALT and a stopped step leave `pc`, a completed instruction adds its length, a fault at most two. -/
theorem programCounterOnlyMovesForward : Obligations.ProgramCounterOnlyMovesForward := by
  intro s t hinv h
  by_cases hrun : s.run = .running
  · rcases step_outcome hrun h with ⟨-, rfl⟩ | ⟨i, hb, hc⟩ | hf
    · exact ⟨Nat.le_refl _, Nat.le_add_right _ _⟩
    · obtain ⟨-, -, hlen, -⟩ := opcodeAloneFixesTheLength i
      have hpc := hc.pc_toNat hb
      omega
    · obtain ⟨n, hn, hpc⟩ := hf.pc
      have hrange := pcInRange_iff.1 hinv.pcRange
      rw [hpc, toNat_add_ofNat (by omega)]
      omega
  · cases eq_of_step_stopped hrun h
    exact ⟨Nat.le_refl _, Nat.le_add_right _ _⟩

end Sys2Proof.Machine
end

section
/-! PROOFS. The cycle of one step: the instruction that the bytes at `pc` decode to runs, also where it was just placed
there; the HALT byte and the opcode fetch outside the window; what a fault leaves and where a completed instruction ends
(40_cycle.md R64 to R70). -/
namespace Sys2Proof.Machine

variable {s : State}

/-! ## Placed bytes -/

theorem bytesAt_of_append {bs cs : List Byte} (h : s.BytesAt (bs ++ cs)) : s.BytesAt bs := fun k hk => by
  rw [h k (by rw [List.length_append]; omega), List.getElem_append_left]

/-- Consecutive writes from `addr` up, none past the window's end, leave every lower address (R43). -/
theorem memRead_memWriteBytes_of_lt {m : Memory} {addr a : Word} {bs : List Byte} (ha : a.toNat < addr.toNat)
    (hend : addr.toNat + bs.length ≤ 0x2800) : memRead (memWriteBytes m addr bs) a = memRead m a := by
  induction bs generalizing m addr with
  | nil => rfl
  | cons v bs ih =>
    rw [List.length_cons] at hend
    have hnext : (addr + 1).toNat = addr.toNat + 1 := toNat_add_ofNat (k := 1) (by omega)
    rw [memWriteBytes]
    cases hwr : memWrite m addr v with
    | outOfRange => exact ih (by omega) (by omega)
    | ok m' =>
      refine (ih (by omega) (by omega)).trans ((memRead_memWrite hwr a).trans (if_neg ?_))
      rintro rfl
      exact Nat.lt_irrefl _ ha

/-- Bytes written at `pc`, all inside the window, stand there (R46). -/
theorem bytesAt_memWriteBytes {bs : List Byte} (m : Memory) (hlo : 0x2000 ≤ s.pc.toNat)
    (hend : s.pc.toNat + bs.length ≤ 0x2800) : State.BytesAt { s with mem := memWriteBytes m s.pc bs } bs := by
  induction bs generalizing m s with
  | nil => exact bytesAt_nil _
  | cons v bs ih =>
    rw [List.length_cons] at hend
    have hnext : (s.pc + 1).toNat = s.pc.toNat + 1 := toNat_add_ofNat (k := 1) (by omega)
    have hwr := memWrite_inWindow m v (inWindow_iff.2 ⟨hlo, by omega⟩)
    refine (bytesAt_cons _ _ _).2 ⟨?_, ?_⟩ <;> simp only [memWriteBytes, hwr]
    · rw [memRead_memWriteBytes_of_lt (by omega) (by omega), memRead_memWrite hwr, if_pos rfl]
    · exact ih (s := s.incPc) _ (by rw [incPc_pc]; omega) (by rw [incPc_pc]; omega)

theorem decode_tableBytes {nbits w : Nat} {i : Instr} (h : decodeTableWord nbits w = some i) :
    ∃ rest, decode (tableBytes nbits w) = .instr i rest := by
  unfold decodeTableWord at h
  cases hd : decode (tableBytes nbits w) with
  | instr j rest => simp only [hd] at h; cases h; exact ⟨rest, rfl⟩
  | rejected why => simp only [hd] at h; cases h

/-- Settles O8: the three bytes placed are the instruction's encoding and what follows it, and they stand at `pc`. -/
theorem placedInstructionRunsNext : Obligations.PlacedInstructionRunsNext := by
  intro s nbits w i hw hw2 hi
  obtain ⟨rest, hd⟩ := decode_tableBytes hi
  have hlo := inWindow_iff.1 hw
  have hhi := inWindow_iff.1 hw2
  have hlast : (s.pc + 2).toNat = s.pc.toNat + 2 := toNat_add_ofNat (k := 2) (by omega)
  have hlen : (tableBytes nbits w).length = 3 := rfl
  have hend : s.pc.toNat + (tableBytes nbits w).length ≤ 0x2800 := by omega
  have hb : (s.withFetchWord nbits w).BytesAt (tableBytes nbits w) :=
    bytesAt_memWriteBytes (s := { s with run := .running }) s.mem hlo.1 hend
  rw [decodedBytesAreTheEncoding _ rest i hd] at hb
  exact step_of_bytesAt rfl (bytesAt_of_append hb)

/-- Settles O7: bytes that decode to an instruction with nothing left are its encoding. -/
theorem stepRunsDecodedInstruction : Obligations.StepRunsDecodedInstruction := by
  intro s bytes i hrun hb hd
  rw [decodedBytesAreTheEncoding bytes [] i hd] at hb
  exact step_of_bytesAt hrun (bytesAt_of_append hb)

/-! ## Halt, faults and completion -/

/-- Settles O11: `0x76` is the HALT byte. -/
theorem haltByteHalts : Obligations.HaltByteHalts := fun _ => step_of_opcHalt

theorem fetchInstr_outside (hw : ¬ InWindow s.pc) : fetchInstr s = .raised (s.raiseOutOfRange s.pc none) := by
  simp only [fetchInstr, fetchOpcode, memRead_outside s.mem hw]

/-- Settles O12: the opcode fetch is the first transaction, and the bus rejects it. -/
theorem opcodeFetchOutsideWindowFaults : Obligations.OpcodeFetchOutsideWindowFaults := fun _ hrun hw =>
  step_of_raised hrun (fetchInstr_outside hw)

/-- Settles O18: of the three outcomes of a step, only the one that wrote nothing ends in Faulted. -/
theorem faultsArePrecise : Obligations.FaultsArePrecise := by
  intro s t hrun h ht
  rcases step_outcome hrun h with ⟨-, rfl⟩ | ⟨i, -, hc⟩ | hf
  · cases ht
  · cases (hc.run.trans hrun).symm.trans ht
  · refine ⟨readReg_of_regs hf.regs, hf.sp, fun a => by rw [hf.mem], ?_⟩
    obtain ⟨n, hn, hpc⟩ := hf.pc
    match n, hn with
    | 0, _ => exact .inl (hpc.trans (BitVec.add_zero _))
    | 1, _ => exact .inr (.inl hpc)
    | 2, _ => exact .inr (.inr hpc)

/-- Settles O29: of the three ends of a body, only completion stays in Running. -/
theorem completedStepAdvancesByLength : Obligations.CompletedStepAdvancesByLength := by
  intro s t i hrun hb h ht
  rw [step_of_bytesAt hrun hb] at h
  rcases exec_cases i s with ⟨-, e⟩ | ⟨u, e, hc⟩ | ⟨ea, -, -, e, -⟩ <;> cases h.symm.trans e
  · cases ht
  · exact hc.pc
  · cases ht

end Sys2Proof.Machine
end


section
/-! PROOFS. The three `MOV` forms: where each body ends, what it moves and what it keeps, and what two moves in a row
give (41_mov.md R75 to R77, 95_test_vectors.md W6 and W7). -/
namespace Sys2Proof.Machine

variable {s : State}

/-! ## The opcode byte -/

/-- An instruction's bytes with none after them decode to it (R55). -/
theorem decode_encode (i : Instr) : decode (encode i) = .instr i [] := by
  simpa using decodeOfEncodeIsIdentity i []

theorem encode_movRR (dst src : Reg) : encode (.movRR dst src) = [0b01#2 ++ dst.code ++ src.code] := by
  rw [encode_eq, form_movRR]
  rfl

theorem encode_movMR (src : Reg) : encode (.movMR src) = [0b01#2 ++ codeM ++ src.code] := by
  rw [encode_eq, form_movMR]
  rfl

/-! ## Where each body ends -/

theorem exec_movRR_next (dst src : Reg) (s : State) :
    exec (.movRR dst src) s = .next (s.writeReg dst (s.readReg src)).incPc :=
  (exec_movRR dst src s).trans (moveByte_toRegister (readSource_register s src))

theorem exec_mviR_next (dst : Reg) (v : Byte) (s : State) :
    exec (.mviR dst v) s = .next ((s.consume 1).writeReg dst v).incPc :=
  (exec_mviR dst v s).trans (moveByte_toRegister (readSource_immediate _ v))

theorem exec_movRM_next (dst : Reg) {v : Byte} (h : memRead s.mem s.hl = .ok v) :
    exec (.movRM dst) s = .next (s.writeReg dst v).incPc :=
  (exec_movRM dst s).trans (moveByte_toRegister h)

theorem exec_movMR_next (src : Reg) {m : Memory} (h : memWrite s.mem s.hl (s.readReg src) = .ok m) :
    exec (.movMR src) s = .next { s with mem := m }.incPc :=
  (exec_movMR src s).trans (moveByte_toMemory (readSource_register s src) h)

theorem exec_movRM_outside (dst : Reg) (hw : ¬ InWindow s.hl) :
    exec (.movRM dst) s = .next (s.raiseOutOfRange s.hl (some (Instr.movRM dst).form.opcode)) := by
  rw [form_movRM]
  exact (exec_movRM dst s).trans (moveByte_readFault hw)

theorem exec_movMR_outside (src : Reg) (hw : ¬ InWindow s.hl) :
    exec (.movMR src) s = .next (s.raiseOutOfRange s.hl (some (Instr.movMR src).form.opcode)) := by
  rw [form_movMR]
  exact (exec_movMR src s).trans (moveByte_writeFault (readSource_register s src) hw)

/-- `MVI M` faults after its operand fetch, with `pc` at the operand byte (R67, R79). -/
theorem exec_mviM_outside (v : Byte) (hw : ¬ InWindow s.hl) :
    exec (.mviM v) s = .next (s.incPc.raiseOutOfRange s.hl (some (Instr.mviM v).form.opcode)) :=
  (exec_mviM v s).trans (moveByte_writeFault (s := s.incPc) (readSource_immediate _ v) hw)

/-! ## One move -/

/-- Settles O19: the body ends in one register write and the advance of `pc`. -/
theorem movRegisterToRegister : Obligations.MovRegisterToRegister := by
  refine fun dst src s => ⟨encode_movRR dst src ▸ decode_encode _, _, exec_movRR_next dst src s, ?_, fun r hr => ?_,
    rfl, rfl, rfl, rfl, fun _ => rfl⟩
  · simp [readReg_writeReg]
  · simp [readReg_writeReg, hr]

/-- Settles O20: inside the window the gate answers the byte at `cat(H, L)`, and that is what is written. -/
theorem movMemoryToRegister : Obligations.MovMemoryToRegister := by
  intro dst s hw
  have hrd := memRead_inWindow s.mem hw
  refine ⟨_, exec_movRM_next dst hrd, ?_, fun r hr => ?_, rfl, rfl, rfl, rfl, fun _ => rfl⟩
  · simp [readReg_writeReg, hrd]
  · simp [readReg_writeReg, hr]

/-- Settles O21: inside the window one accepted write at `cat(H, L)`, outside it one rejected write. -/
theorem movRegisterToMemory : Obligations.MovRegisterToMemory := by
  refine fun src s => ⟨encode_movMR src ▸ decode_encode _, fun hw => ?_, fun hw => ?_⟩
  · have hwr := memWrite_inWindow s.mem (s.readReg src) hw
    exact ⟨_, exec_movMR_next src hwr, (memRead_memWrite hwr _).trans (if_pos rfl),
      fun a ha => (memRead_memWrite hwr a).trans (if_neg ha), readReg_of_regs rfl, rfl, rfl, rfl, rfl⟩
  · exact ⟨_, exec_movMR_outside src hw, rfl, rfl, rfl, fun _ => rfl, readReg_of_regs rfl, rfl, rfl⟩

/-- Settles O16: the gate rejects the read or the write at `cat(H, L)`, and a rejected access only raises. -/
theorem indirectAccessOutsideWindowFaults : Obligations.IndirectAccessOutsideWindowFaults := fun _ r v hw =>
  ⟨exec_movRM_outside r hw, exec_movMR_outside r hw, exec_mviM_outside v hw⟩

/-! ## Two moves -/

/-- Settles O52: `src` holds `k` when the second move reads it, and only `dst` and `src` are written. -/
theorem moveRoundTrip : Obligations.MoveRoundTrip := by
  refine fun dst src k s => ⟨_, _, exec_mviR_next src k s, exec_movRR_next dst src _, ?_, ?_, fun r hd hs => ?_⟩
  · simp [readReg_writeReg]
  · simp [readReg_writeReg]
  · simp [readReg_writeReg, hd, hs]

/-- Settles O53: the store leaves H and L, so the load reads the address just written, also where `r` is H or L. -/
theorem storeThenLoadThroughPointer : Obligations.StoreThenLoadThroughPointer := by
  intro r r2 s hw
  have hwr := memWrite_inWindow s.mem (s.readReg r) hw
  have hrd := (memRead_memWrite hwr s.hl).trans (if_pos rfl)
  refine ⟨_, _, exec_movMR_next r hwr, exec_movRM_next r2 hrd, ?_⟩
  simp [readReg_writeReg]

end Sys2Proof.Machine
end

section
/-! PROOFS. The immediate loads `MVI` and `LXI`: where each body ends, and what it writes and keeps (42_immediate.md
R78 to R81). -/
namespace Sys2Proof.Machine

variable {s : State}

/-! ## Where each body ends -/

/-- `n` operand bytes and the opcode byte are an advance of `n + 1` (R69). -/
theorem incPc_consume_pc (s : State) (n : Nat) : (s.consume n).incPc.pc = s.pc + BitVec.ofNat 16 (n + 1) := by
  rw [incPc_pc, consume_pc, BitVec.add_assoc, BitVec.ofNat_add]
  rfl

theorem exec_mviM_next {v : Byte} {m : Memory} (h : memWrite s.mem s.hl v = .ok m) :
    exec (.mviM v) s = .next { s.consume 1 with mem := m }.incPc :=
  (exec_mviM v s).trans (moveByte_toMemory (s := s.consume 1) (readSource_immediate _ v) h)

theorem exec_lxiRp_next (p : Pair) (w : Word) (s : State) :
    exec (.lxiRp p w) s = .next ((s.consume 2).writePair p w).incPc :=
  exec_lxiRp p w s

theorem exec_lxiSP_next (w : Word) (s : State) : exec (.lxiSP w) s = .next { s.consume 2 with sp := w }.incPc :=
  exec_lxiSP w s

/-! ## The two halves of a pair -/

theorem lowReg_ne_highReg (p : Pair) : p.lowReg ≠ p.highReg := by cases p <;> decide

/-! ## What each load does -/

/-- Settles O22: the body ends in one register write after one operand byte. -/
theorem mviToRegister : Obligations.MviToRegister := by
  refine fun dst v s => ⟨_, exec_mviR_next dst v s, ?_, fun r hr => ?_, incPc_consume_pc s 1, rfl, rfl, rfl,
    fun _ => rfl⟩
  · simp [readReg_writeReg]
  · simp [readReg_writeReg, hr]

/-- Settles O23: inside the window the gate accepts the one write, at `cat(H, L)`. -/
theorem mviToMemory : Obligations.MviToMemory := by
  intro v s hw
  have hwr := memWrite_inWindow s.mem v hw
  exact ⟨_, exec_mviM_next hwr, (memRead_memWrite hwr _).trans (if_pos rfl),
    fun a ha => (memRead_memWrite hwr a).trans (if_neg ha), readReg_of_regs rfl, incPc_consume_pc s 1, rfl, rfl, rfl⟩

/-- Settles O24: the pair's two registers are distinct, so each keeps its own half of the operand. -/
theorem lxiToPair : Obligations.LxiToPair := by
  refine fun p hi lo s => ⟨_, exec_lxiRp_next p (cat hi lo) s, ?_, ?_, fun r hhigh hlow => ?_, incPc_consume_pc s 2,
    rfl, rfl, rfl, fun _ => rfl⟩
  · simp [readReg_writePair]
  · simp [readReg_writePair, lowReg_ne_highReg]
  · simp [readReg_writePair, hhigh, hlow]

/-- Settles O25: the operand goes to `sp` whole, as the number its two bytes combine to. -/
theorem lxiToStackPointer : Obligations.LxiToStackPointer := fun hi lo s =>
  ⟨_, exec_lxiSP_next (cat hi lo) s, cat_toNat hi lo, readReg_of_regs rfl, incPc_consume_pc s 2, rfl, rfl, fun _ => rfl⟩

end Sys2Proof.Machine
end

section
/-! PROOFS. The direct load and store `LDA` and `STA`: where each body ends, what it moves and keeps, and what a store
followed by a load gives (43_direct.md R82 and R83, 95_test_vectors.md W8). -/
namespace Sys2Proof.Machine

variable {s : State} {addr : Word}

/-! ## Where each body ends -/

/-- Consuming operand bytes moves `pc` and touches nothing else (R67). -/
theorem consume_eq (s : State) (n : Nat) : s.consume n = { s with pc := s.pc + BitVec.ofNat 16 n } := by
  induction n generalizing s with
  | zero => simp [State.consume]
  | succ n ih =>
    rw [State.consume, ih, incPc_pc, ← add_ofNat_succ]
    rfl

theorem exec_lda_next {v : Byte} (h : memRead s.mem addr = .ok v) :
    exec (.lda addr) s = .next ((s.consume 2).writeReg .a v).incPc :=
  (exec_lda addr s).trans (moveByte_toRegister (s := s.consume 2) h)

theorem exec_sta_next {m : Memory} (h : memWrite s.mem addr (s.readReg .a) = .ok m) :
    exec (.sta addr) s = .next { s.consume 2 with mem := m }.incPc :=
  (exec_sta addr s).trans (moveByte_toMemory (s := s.consume 2) (readSource_register _ .a) h)

theorem exec_lda_outside (hw : ¬ InWindow addr) :
    exec (.lda addr) s = .next ((s.consume 2).raiseOutOfRange addr (some (Form.lda addr).opcode)) :=
  (exec_lda addr s).trans (moveByte_readFault hw)

theorem exec_sta_outside (hw : ¬ InWindow addr) :
    exec (.sta addr) s = .next ((s.consume 2).raiseOutOfRange addr (some (Form.sta addr).opcode)) :=
  (exec_sta addr s).trans (moveByte_writeFault (readSource_register _ .a) hw)

/-! ## One access -/

/-- Settles O26: inside the window the gate answers the byte at the address, and that is what goes to A. -/
theorem ldaLoadsA : Obligations.LdaLoadsA := by
  intro addr s hw
  have hrd := memRead_inWindow s.mem hw
  refine ⟨_, exec_lda_next hrd, ?_, fun r hr => ?_, incPc_consume_pc s 2, rfl, rfl, rfl, fun _ => rfl⟩
  · simp [readReg_writeReg, hrd]
  · simp [readReg_writeReg, hr]

/-- Settles O27: inside the window the gate accepts the one write, at the address. -/
theorem staStoresA : Obligations.StaStoresA := by
  intro addr s hw
  have hwr := memWrite_inWindow s.mem (s.readReg .a) hw
  exact ⟨_, exec_sta_next hwr, (memRead_memWrite hwr _).trans (if_pos rfl),
    fun a ha => (memRead_memWrite hwr a).trans (if_neg ha), readReg_of_regs rfl, incPc_consume_pc s 2, rfl, rfl, rfl⟩

/-- Settles O17: the gate rejects the access once both operand bytes are consumed, and a rejected access only raises. -/
theorem directAccessOutsideWindowFaults : Obligations.DirectAccessOutsideWindowFaults := by
  intro s addr hw
  rw [exec_lda_outside hw, exec_sta_outside hw, consume_eq]
  exact ⟨rfl, rfl⟩

/-! ## A store and a load -/

/-- Settles O54: the load reads the byte the store left at `x`, which is A as at the start, and only A was written. -/
theorem storeThenLoadDirect : Obligations.StoreThenLoadDirect := by
  intro x v s hw
  have hwr := memWrite_inWindow s.mem (s.readReg .a) hw
  have hrd := (memRead_memWrite hwr x).trans (if_pos rfl)
  refine ⟨_, _, _, exec_sta_next hwr, exec_mviR_next .a v _, exec_lda_next hrd, regs_ext fun r => ?_⟩
  by_cases hr : r = .a
  · simp [readReg_writeReg, hr]
  · simp only [incPc_readReg, consume_readReg, readReg_writeReg, if_neg hr]
    exact readReg_of_regs rfl r

end Sys2Proof.Machine
end

section
/-! PROOFS. The instruction `HALT`: its byte decodes to it, and its body writes `run` and keeps the rest (44_halt.md
R84). -/
namespace Sys2Proof.Machine

/-- `HALT` is one byte long, so its encoding is its opcode (R9, R49). -/
theorem encode_halt : encode .halt = [opcHalt] := rfl

/-- Unlike every other completed body, `HALT` ends with `pc` where it stood (R65, R69). -/
theorem exec_halt_next (s : State) : exec .halt s = .next { s with run := .halted } := exec_halt s

/-- Settles O28: the HALT byte is the encoding of `HALT`, and the body writes the run state only. -/
theorem haltInstructionHalts : Obligations.HaltInstructionHalts :=
  ⟨encode_halt ▸ decode_encode .halt, fun s =>
    ⟨_, exec_halt_next s, rfl, rfl, rfl, readReg_of_regs rfl, rfl, fun _ => rfl⟩⟩

end Sys2Proof.Machine
end

section
/-! PROOFS. Every step has a next state (60_exceptions.md R88), and an operand byte outside the window ends the step in
the fault that its fetch raised (40_cycle.md R67, 60_exceptions.md R86, R90). -/
namespace Sys2Proof.Machine

/-- Settles O10: a step fetches or runs a body, and the spec's faults are next states in both. -/
theorem everyStepHasANextState : Obligations.EveryStepHasANextState := step_next

variable {s t : State} {i : Instr}

/-! ## Operand fetches that the bus rejects -/

/-- The instruction's length is its opcode byte and its operand bytes (R57). -/
theorem length_eq_operandBytes (i : Instr) : i.length = 1 + i.form.format.operandBytes := rfl

theorem fetchOperands_firstOutside (op : Byte) {n : Nat} (hn : 1 ≤ n) (hw : ¬ InWindow (s.pc + 1)) :
    fetchOperands op n s = .raised (s.raiseOutOfRange (s.pc + 1) (some op)) := by
  match n, hn with
  | 1, _ => simp only [fetchOperands, fetchNext_outside hw]
  | n + 2, _ => simp only [fetchOperands, fetchNext_outside hw]

theorem fetchOperands_secondOutside (op : Byte) (hw1 : InWindow (s.pc + 1)) (hw2 : ¬ InWindow (s.pc + 1 + 1)) :
    fetchOperands op 2 s = .raised (s.incPc.raiseOutOfRange (s.pc + 1 + 1) (some op)) := by
  have hfirst : fetchNext op s = .ok _ s.incPc := fetchNext_inWindow (memRead_inWindow s.mem hw1)
  have hsecond : fetchNext op s.incPc = .raised _ := fetchNext_outside hw2
  simp only [fetchOperands, hfirst, hsecond, incPc_pc]

/-- An instruction whose opcode stands at `pc` and whose operand fetch raises ends its step there (R66, R88). -/
theorem step_of_fetchOperands_raised (hrun : s.run = .running) (hop : memRead s.mem s.pc = .ok i.form.opcode)
    (h : fetchOperands i.form.opcode i.form.format.operandBytes s = .raised t) : step s = .next t := by
  obtain ⟨r, hr, hf⟩ := decodeOpcode_opcode i
  rw [← hf] at h
  exact step_of_raised hrun (by simp only [fetchInstr, fetchOpcode, hop, hr, h])

/-! ## The two operand bytes -/

/-- Settles O14: the first operand fetch is rejected with `pc` still at the opcode. -/
theorem firstOperandOutsideWindowFaults : Obligations.FirstOperandOutsideWindowFaults := by
  intro s i hrun hlen hop hw
  rw [length_eq_operandBytes] at hlen
  exact step_of_fetchOperands_raised hrun hop (fetchOperands_firstOutside _ (by omega) hw)

/-- Settles O15: the first operand fetch has moved `pc` to its byte, and the second is rejected there. -/
theorem secondOperandOutsideWindowFaults : Obligations.SecondOperandOutsideWindowFaults := by
  intro s i hrun hlen hop hw1 hw2
  have hnext : s.pc + 2 = s.pc + 1 + 1 := add_ofNat_succ s.pc 1
  have htwo : i.form.format.operandBytes = 2 := by rw [length_eq_operandBytes] at hlen; omega
  rw [hnext] at hw2 ⊢
  exact step_of_fetchOperands_raised hrun hop (htwo ▸ fetchOperands_secondOutside _ hw1 hw2)

end Sys2Proof.Machine
end

section
/-! PROOFS. `execute` is the host interface's run of as many steps, and every run has stopped after `SIZE + 1` of them
(70_reset_and_hazards.md R104, R105). -/
namespace Sys2Proof.Machine

/-- A run of `n` steps that does nothing once the block has stopped is `execute` with the limit `n` (R63, R104). -/
theorem core_run_eq_executeUpTo (n : Nat) (s : State) : core.run n s = executeUpTo n s := by
  induction n generalizing s with
  | zero => rfl
  | succ n ih =>
    by_cases hrun : s.run = .running
    · obtain ⟨t, ht⟩ := step_next s
      exact (run_next n ht).trans ((ih t).trans (executeUpTo_succ_running hrun ht n).symm)
    · exact (run_stopped hrun (n + 1)).trans (executeUpTo_stopped hrun (n + 1)).symm

/-- `execute` always returns a state, for the model neither faults nor refuses in a step (R88, R104). -/
theorem execute_next (limit : Option Nat) (s : State) : ∃ t, execute limit s = .next t := by
  unfold execute
  generalize limit.getD (Config.size + 1) = n
  induction n generalizing s with
  | zero => exact ⟨s, rfl⟩
  | succ n ih =>
    by_cases hrun : s.run = .running
    · obtain ⟨t, ht⟩ := step_next s
      exact executeUpTo_succ_running hrun ht n ▸ ih t
    · exact ⟨s, executeUpTo_stopped hrun (n + 1)⟩

/-- Settles O47: a step that stays in Running uses up an address of the window, so the run has stopped, and the run of
`SIZE + 1` steps is what `execute` without a limit does. -/
theorem everyRunEndsWithinSizePlusOneSteps : Obligations.EveryRunEndsWithinSizePlusOneSteps := by
  intro s
  obtain ⟨t, ht, hstop⟩ := stopsWithin_size_succ s
  exact ⟨t, (core_run_eq_executeUpTo _ s).trans ht, hstop, ht⟩

/-- Settles O46: both repeat the step while Running, and a stopped block stays as it is under both. -/
theorem executeIsRepeatedStep : Obligations.ExecuteIsRepeatedStep := fun n s => (core_run_eq_executeUpTo n s).symm

end Sys2Proof.Machine
end

section
/-! PROOFS. Loading: what one loader write leaves, when the host has that move, and that an instruction loaded at `BASE`
runs first (70_reset_and_hazards.md R101 to R103). -/
namespace Sys2Proof.Machine

variable {s : State} {addr : Word}

/-! ## One loader write -/

theorem load_of_memWrite {v : Byte} {m : Memory} (h : memWrite s.mem addr v = .ok m) :
    s.load addr v = ({ s with mem := m }, .ok ()) := by
  simp only [State.load, h]

theorem load_outside (v : Byte) (h : ¬ InWindow addr) : s.load addr v = (s, .outOfRange) :=
  (load_cases.resolve_left fun ⟨hw, _⟩ => h hw).2

/-- The loader gets the gate's reply (R35, R103). -/
theorem load_reply (s : State) (addr : Word) (v : Byte) :
    (s.load addr v).2 = if InWindow addr then .ok () else .outOfRange := by
  rcases load_cases (s := s) (addr := addr) (v := v) with ⟨hw, _, -, e⟩ | ⟨hw, e⟩ <;> rw [e]
  · rw [if_pos hw]
  · rw [if_neg hw]

theorem memRead_load_same (v : Byte) (h : InWindow addr) : memRead (s.load addr v).1.mem addr = .ok v := by
  have hwr := memWrite_inWindow s.mem v h
  rw [load_of_memWrite hwr]
  exact (memRead_memWrite hwr addr).trans (if_pos rfl)

/-- A loader write shows at no address but its own (R35, R43). -/
theorem memRead_load_of_ne {a : Word} (v : Byte) (h : a ≠ addr) :
    memRead (s.load addr v).1.mem a = memRead s.mem a := by
  rcases load_cases (s := s) (addr := addr) (v := v) with ⟨-, _, hwr, e⟩ | ⟨-, e⟩ <;> rw [e]
  exact (memRead_memWrite hwr a).trans (if_neg h)

/-- Settles O45: inside the window the gate accepts the write, outside it the state stays. -/
theorem loaderWritesThroughTheGate : Obligations.LoaderWritesThroughTheGate := fun s addr v =>
  ⟨fun hw => ⟨(load_reply s addr v).trans (if_pos hw), memRead_load_same v hw, fun _ => memRead_load_of_ne v,
    by rw [load_of_memWrite (memWrite_inWindow s.mem v hw)]⟩, load_outside v⟩

/-- Settles O56: the session's mark decides whether the load is answered, and the gate how. -/
theorem loadOnlyBeforeExecution : Obligations.LoadOnlyBeforeExecution := fun s addr v =>
  ⟨rfl, (s.load addr v).1, by rw [← load_reply s addr v]; rfl, memRead_load_same v, fun _ => memRead_load_of_ne v,
    load_regs s addr v, load_pc s addr v, load_sp s addr v, load_run s addr v, load_fault s addr v⟩

/-! ## Consecutive loader writes -/

/-- Loading consecutive bytes from `addr` up is writing them through the bus one after the other (R35, R101). -/
theorem loadAll_consecutive (s : State) (addr : Word) (bs : List Byte) :
    s.loadAll (bs.mapIdx fun k v => (addr + BitVec.ofNat 16 k, v)) = { s with mem := memWriteBytes s.mem addr bs } := by
  induction bs generalizing s addr with
  | nil => rfl
  | cons v bs ih =>
    simp only [List.mapIdx_cons, add_ofNat_succ, State.loadAll]
    rw [ih, memWriteBytes, BitVec.add_zero]
    cases hwr : memWrite s.mem addr v with
    | ok m => rw [load_of_memWrite hwr]
    | outOfRange => rw [load_outside v (memWrite_eq_outOfRange.1 hwr)]

/-- Settles O49: the loaded bytes stand at `pc`, which reset put at `BASE`. -/
theorem loadedInstructionRunsFirst : Obligations.LoadedInstructionRunsFirst := by
  rintro regs sp i _ rfl
  obtain ⟨hlen, -, hmax, -⟩ := opcodeAloneFixesTheLength i
  have hbase : (State.resetWith regs sp).pc.toNat = 0x2000 := rfl
  rw [loadAll_consecutive]
  exact step_of_bytesAt rfl
    (bytesAt_memWriteBytes (s := State.resetWith regs sp) [] (by omega) (by omega))

end Sys2Proof.Machine
end

section
/-! PROOFS. The host's moves: what reset leaves, that every answered move keeps the session's invariant, which sequences
of moves are answered, and where the boot order ends (70_reset_and_hazards.md R98 to R105). -/
namespace Sys2Proof.Machine

variable {h k : Session} {move : HostMove} {moves : List HostMove}

/-! ## Reset and the invariant -/

/-- The reset state has the invariant whatever `RESET_REGS` is (R30, R31, R47). -/
theorem inv_resetWith (regs : RegFile) (sp : Word) : (State.resetWith regs sp).Inv :=
  inv_of_running rfl rfl (pcInRange_of_inWindow (s := State.resetWith regs sp) (by decide : InWindow Config.base))

/-- Settles O37: the reset state is Running at `BASE` with no cell listed. -/
theorem resetHasInvariant : Obligations.ResetHasInvariant :=
  have hsession (regs : RegFile) (sp : Word) : Session.Inv ⟨State.resetWith regs sp, false⟩ :=
    ⟨inv_resetWith regs sp, fun _ => ⟨rfl, rfl⟩⟩
  ⟨fun regs sp => ⟨inv_resetWith regs sp, hsession regs sp⟩, hsession _ _⟩

/-- Settles O39: the move answers the reset state, whatever the session was. -/
theorem resetState : Obligations.ResetState := fun _ => ⟨State.reset, rfl, rfl, rfl, rfl⟩

/-- A loader write into a Running block keeps its invariant: it writes memory only, and that through the gate (R103). -/
theorem inv_load {s : State} (addr : Word) (v : Byte) (hinv : s.Inv) (hrun : s.run = .running) :
    (s.load addr v).1.Inv :=
  inv_of_running ((load_run s addr v).trans hrun) (load_wf hinv.memory)
    (by simpa [State.pcInRange] using hinv.pcRange)

/-- `execute` keeps the block's invariant, as each of its steps does (R104). -/
theorem inv_execute {limit : Option Nat} {s t : State} (hinv : s.Inv) (e : execute limit s = .next t) : t.Inv :=
  executeUpTo_keeps stepKeepsInvariant hinv e

/-- Once execution has begun the session's invariant is the block's. -/
theorem sessionInv_begun {t : State} (hinv : t.Inv) : Session.Inv ⟨t, true⟩ := ⟨hinv, nofun⟩

/-- Settles O58: a load comes before execution only, where the block still stands Running at `BASE`, and the other moves
begin execution, start afresh or change nothing. -/
theorem hostMovesKeepSessionInvariant : Obligations.HostMovesKeepSessionInvariant := by
  intro h k move reply hinv e
  rcases hostMove_cases e with ⟨-, rfl, -⟩ | ⟨addr, v, -, hb, rfl, -⟩ | ⟨-, t, ht, rfl, -⟩ | ⟨limit, -, t, ht, rfl, -⟩ |
    ⟨-, rfl, -⟩
  · exact resetHasInvariant.2
  · obtain ⟨hrun, hpc⟩ := hinv.entry hb
    exact ⟨inv_load addr v hinv.block hrun, fun _ => ⟨(load_run _ addr v).trans hrun, (load_pc _ addr v).trans hpc⟩⟩
  · exact sessionInv_begun (stepKeepsInvariant _ _ hinv.block ht)
  · exact sessionInv_begun (inv_execute hinv.block ht)
  · exact hinv

/-! ## Sequences of moves -/

theorem hostMoves_cons_next {l : Session} {reply : HostReply} {replies : List HostReply}
    (e : hostMove h move = .next (k, reply)) (es : hostMoves k moves = .next (l, replies)) :
    hostMoves h (move :: moves) = .next (l, reply :: replies) := by
  simp only [hostMoves, e, es]

theorem hostMoves_cons_refused {r : Refusal} (e : hostMove h move = .refused r) :
    hostMoves h (move :: moves) = .refused r := by
  simp only [hostMoves, e]

theorem hostMoves_cons_next_refused {reply : HostReply} {r : Refusal} (e : hostMove h move = .next (k, reply))
    (es : hostMoves k moves = .refused r) : hostMoves h (move :: moves) = .refused r := by
  simp only [hostMoves, e, es]

theorem hostMove_step_next (h : Session) : ∃ t, hostMove h .step = .next (⟨t, true⟩, .nothing) := by
  obtain ⟨t, ht⟩ := step_next h.block
  exact ⟨t, by simp only [hostMove, ht, Session.ran]⟩

theorem hostMove_execute_next {limit : Option Nat} {t : State} (e : execute limit h.block = .next t) :
    hostMove h (.execute limit) = .next (⟨t, true⟩, .nothing) := by
  simp only [hostMove, e, Session.ran]

/-- One move against the rule of R103: it is answered, and what is left of the sequence is judged by the session it
leaves, or it is a load after execution has begun, which is refused and makes any sequence illegal. -/
theorem hostMove_legality (h : Session) (move : HostMove) :
    (∃ k reply, hostMove h move = .next (k, reply) ∧
      ∀ moves, movesLegal h.begun (move :: moves) = movesLegal k.begun moves) ∨
    (hostMove h move = .refused .loadAfterExecutionBegan ∧ ∀ moves, movesLegal h.begun (move :: moves) = false) := by
  cases move with
  | reset => exact .inl ⟨_, _, rfl, fun _ => rfl⟩
  | load addr v =>
    obtain ⟨s, begun⟩ := h
    cases begun with
    | false => exact .inl ⟨_, _, rfl, fun _ => rfl⟩
    | true => exact .inr ⟨rfl, fun _ => rfl⟩
  | step =>
    obtain ⟨t, e⟩ := hostMove_step_next h
    exact .inl ⟨_, _, e, fun _ => rfl⟩
  | execute limit =>
    obtain ⟨t, ht⟩ := execute_next limit h.block
    exact .inl ⟨_, _, hostMove_execute_next ht, fun _ => rfl⟩
  | observe => exact .inl ⟨_, _, rfl, fun _ => rfl⟩

/-- Settles O57: by induction on the moves, the session after each move being the one that judges the rest. -/
theorem answeredMovesAreTheLegalOnes : Obligations.AnsweredMovesAreTheLegalOnes := by
  intro h moves
  induction moves generalizing h with
  | nil => exact ⟨fun _ => ⟨h, [], rfl, rfl⟩, nofun⟩
  | cons move moves ih =>
    rcases hostMove_legality h move with ⟨k, reply, e, hlegal⟩ | ⟨e, hillegal⟩
    · obtain ⟨hanswered, hrefused⟩ := ih k
      rw [hlegal]
      refine ⟨fun hl => ?_, fun hl => hostMoves_cons_next_refused e (hrefused hl)⟩
      obtain ⟨t, replies, es, hlen⟩ := hanswered hl
      exact ⟨t, reply :: replies, hostMoves_cons_next e es, congrArg (· + 1) hlen⟩
    · rw [hillegal]
      exact ⟨nofun, fun _ => hostMoves_cons_refused e⟩

/-! ## The boot order -/

/-- Before execution, loading an image and then running it is answered, and ends where `execute` does from the loaded
block (R101, R104). -/
theorem hostMoves_loads_execute (s : State) (image : List (Word × Byte)) (limit : Option Nat) : ∃ t replies,
    hostMoves ⟨s, false⟩ ((image.map fun cell => .load cell.1 cell.2) ++ [.execute limit]) = .next (⟨t, true⟩, replies) ∧
    execute limit (s.loadAll image) = .next t := by
  induction image generalizing s with
  | nil =>
    obtain ⟨t, ht⟩ := execute_next limit s
    exact ⟨t, _, hostMoves_cons_next (hostMove_execute_next ht) rfl, ht⟩
  | cons cell image ih =>
    obtain ⟨t, replies, es, ht⟩ := ih (s.load cell.1 cell.2).1
    exact ⟨t, _, hostMoves_cons_next rfl es, ht⟩

/-- Settles O59: the reset leaves the reset state with execution not begun, and the rest loads and runs from there. -/
theorem bootOrderIsAnswered : Obligations.BootOrderIsAnswered := fun _ image limit => by
  obtain ⟨t, replies, es, ht⟩ := hostMoves_loads_execute .reset image limit
  exact ⟨t, _, hostMoves_cons_next rfl es, ht⟩

end Sys2Proof.Machine
end

section
/-! PROOFS. A step in Halted or Faulted: it keeps the state and stays off the bus (40_cycle.md R63). -/
namespace Sys2Proof.Machine

/-- Only a Running block fetches, so only it makes bus transactions (R63). -/
theorem busTrace_stopped {s : State} (h : s.run ≠ .running) : busTrace s = [] := by
  unfold busTrace
  split
  · rfl
  · rfl
  · next hrun => exact absurd hrun h

/-- Settles O9: `step` keeps a stopped state, and `busTrace` has no transactions for it. -/
theorem stoppedStepChangesNothing : Obligations.StoppedStepChangesNothing := fun _ h =>
  ⟨step_stopped h, busTrace_stopped h⟩

end Sys2Proof.Machine
end
